-- ==== Sys2Proof/Word.lean ====
section
/-! DEFINITION. The widths of the machine: words, bytes, nibbles, register indices (00_scope.md R6, R12). -/

namespace Sys2Proof

/-- "A 16-bit unsigned quantity; the granularity of memory and registers" (00_scope.md R6, R18). -/
abbrev Word := BitVec 16

/-- Half a memory cell; bytes exist only in the host's images and in how `State` lists memory (20_memory.md R70). -/
abbrev Byte := BitVec 8

/-- One hexadecimal digit of an instruction word (30_encoding.md R100). -/
abbrev Nibble := BitVec 4

/-- A register index, 0..15 for R0..RF (10_state.md R20). -/
abbrev Reg := BitVec 4

end Sys2Proof
end

