-- ==== Sys2Proof/Machine/Handler.lean ====
section
/-! DEFINITION. What a syscall handler can read and write, and what a handler is, as plain data (45_system.md R221, R224
to R226). What these data mean is in System.lean. -/

namespace Sys2Proof.Machine

/-- The three privilege levels; "smaller is more privileged" (10_state.md R32). A fourth value does not exist. -/
inductive Ring where
  /-- ring 0 -/
  | kernel
  /-- ring 1 -/
  | supervisor
  /-- ring 2 -/
  | user
  deriving DecidableEq, Repr

/-- SR: four flags with no packed layout (10_state.md R29). -/
structure Flags where
  z : Bool
  n : Bool
  c : Bool
  v : Bool
  deriving DecidableEq, Repr

/-- The four flag names (10_state.md R29). -/
inductive FlagName where
  | z
  | n
  | c
  | v
  deriving DecidableEq, Repr

/-- Memory as the list of its non-zero bytes: cell `a` is the bytes `2a` (bits 7:0) and `2a+1` (bits 15:8)
(assumption logs 1 and 2; the operations and the canonical form are in Ops.lean). -/
abbrev Memory := List Host.Cell

/-- The "borrowed view of memory and registers" a handler is called with (45_system.md R224). -/
structure HandlerView where
  regs : Vector Word 15
  pc : Word
  sp : Word
  lr : Word
  flags : Flags
  cpl : Ring
  mem : Memory
  deriving DecidableEq, Repr

/-- One thing a syscall handler can do through its borrowed view of registers and memory (45_system.md R224, R226),
with addresses and values of a type of its own: words once it has run, expressions in its description. -/
inductive HandlerWrite (α : Type) where
  /-- `write(i, v)` -/
  | reg (i : Reg) (v : α)
  /-- `write_pc(v)` -/
  | pc (v : α)
  /-- `write_sp(v)` -/
  | sp (v : α)
  /-- `write_lr(v)` -/
  | lr (v : α)
  /-- `set_flags(z, n, c, v)` -/
  | flags (f : Flags)
  /-- `set_ring(r)` -/
  | ring (r : Ring)
  /-- a raw write of one memory cell -/
  | cell (a v : α)
  deriving DecidableEq, Repr

/-- The outcome of one handler call: its writes in order and its return value (45_system.md R224, R225). -/
structure HandlerReply where
  writes : List (HandlerWrite Word)
  ret : Word
  deriving DecidableEq, Repr

/-- A value a described handler computes from what it can read at the call (assumption log 7). -/
inductive HandlerExpr where
  | const (v : Word)
  | reg (i : Reg)
  | pc
  | sp
  | lr
  /-- 1 when the flag is set, else 0 -/
  | flag (f : FlagName)
  /-- the number of the ring at the call -/
  | cpl
  /-- a raw read of one memory cell -/
  | cell (a : HandlerExpr)
  | add (a b : HandlerExpr)
  | sub (a b : HandlerExpr)
  /-- an input from outside, such as console input or the time: any value, a new one at each call -/
  | input (source : Nat)
  deriving DecidableEq, Repr

/-- The relation of a handler, as plain data (45_system.md R224, assumption log 7). -/
inductive HandlerBody where
  /-- any relation at all, named by a number: its outcomes are free values -/
  | host (id : Nat)
  /-- it returns, with these writes and this return value, all computed from the state at the call -/
  | returns (writes : List (HandlerWrite HandlerExpr)) (ret : HandlerExpr)
  /-- the first when the value is 0 at the call, else the second -/
  | ifZero (test : HandlerExpr) (zero other : HandlerBody)
  /-- the relation without an outcome: it never returns -/
  | never
  deriving DecidableEq, Repr

/-- An entry of the dispatch table `HANDLERS`: the syscall number, the handler's declared minimum ring, and the handler
(00_scope.md R10, 45_system.md R221). -/
structure HandlerEntry where
  num : Word
  minRing : Ring
  body : HandlerBody
  deriving DecidableEq, Repr

end Sys2Proof.Machine
end

