-- ==== Sys2Proof/Config.lean ====
section
/-! DEFINITION. What is fixed for every machine, the defaults of its parameters (00_scope.md R6 to R11), and the free
values of the host. -/

namespace Sys2Proof.Config

/-- The number of memory cells (00_scope.md R6). -/
def cellCount : Nat := 65536

/-- PC after reset (00_scope.md R6, 10_state.md R42). -/
def resetPc : Word := 0x0000

/-- SP after reset (00_scope.md R6, 10_state.md R42). -/
def resetSp : Word := 0xFFFE

/-- The default of the parameter `ILLEGAL_SET`: no nibble is illegal (00_scope.md R8). -/
def defaultIllegalSet : List Nibble := []

/-- The outcome of a call of the host handler of a number, on what it sees at the call: none where its relation has no
outcome. Free: nothing constrains it, and the count of the calls made gives a handler whose relation has several
outcomes a new choice at each call (45_system.md R224, assumption log 7). -/
opaque hostOutcome (id calls : Nat) (view : Machine.HandlerView) : Option Machine.HandlerReply

/-- The value a described handler takes from an outside source at a call. Free, as `hostOutcome` (45_system.md R224,
assumption log 7). -/
opaque hostInput (source calls : Nat) : Word

end Sys2Proof.Config
end

