-- ==== Sys2Proof/Syntax.lean ====
section
/-! DEFINITION. The decoded records, one constructor for each row of the opcode table (30_encoding.md R109, R112, R120). -/

namespace Sys2Proof

/-- A decoded instruction. A field the execution ignores (the payload of SYSCALL, rt of NOT, rd of JMP) is kept in
the record, so that encoding gives the word back (30_encoding.md R114, R119). -/
inductive Instr where
  /-- HALT, the exact word 0xFFFF (R106). -/
  | halt
  /-- SYSCALL with its ignored low twelve bits (R105). -/
  | syscall (payload : BitVec 12)
  /-- ADD Rd, Rs, Rt (R101). -/
  | add (rd rs rt : Reg)
  /-- ADDI Rd, imm (R102). -/
  | addi (rd : Reg) (imm : Byte)
  /-- SUB Rd, Rs, Rt (R101). -/
  | sub (rd rs rt : Reg)
  /-- AND Rd, Rs, Rt (R101). -/
  | and (rd rs rt : Reg)
  /-- OR Rd, Rs, Rt (R101). -/
  | or (rd rs rt : Reg)
  /-- XOR Rd, Rs, Rt (R101). -/
  | xor (rd rs rt : Reg)
  /-- NOT Rd, Rs; rt is ignored (R101, R114). -/
  | not (rd rs rt : Reg)
  /-- SHL Rd, Rs, Rt (R101). -/
  | shl (rd rs rt : Reg)
  /-- SHR Rd, Rs, Rt (R101). -/
  | shr (rd rs rt : Reg)
  /-- LOAD Rd, [Rs+off] (R103). -/
  | load (rd rs : Reg) (off : Nibble)
  /-- STORE Rd, [Rs+off]; rd is the data source (R103). -/
  | store (rd rs : Reg) (off : Nibble)
  /-- LOADI Rd, imm (R102). -/
  | loadi (rd : Reg) (imm : Byte)
  /-- JMP off; rd is ignored (R104, R114). -/
  | jmp (rd : Reg) (off : Byte)
  /-- BEQ Rd, off (R104). -/
  | beq (rd : Reg) (off : Byte)
  /-- BNE Rd, off (R104). -/
  | bne (rd : Reg) (off : Byte)
  /-- The distinguished Illegal variant, carrying the word (R113, R120). -/
  | illegal (word : Word)
  deriving DecidableEq, Repr

end Sys2Proof
end

