-- ==== Sys2Proof/WellFormed.lean ====
section
/-! DEFINITION. Which records can be encoded at all, whatever `ILLEGAL_SET` is (30_encoding.md R116, R119). The part
that depends on `ILLEGAL_SET` needs the opcode map and stands in Decode.lean (`Instr.decodable`). -/

namespace Sys2Proof

/-- BNE RF, -1 is shadowed by HALT, and the word 0xFFFF is never Illegal (30_encoding.md R109, R116); every other
record is well formed. -/
def Instr.wellFormed : Instr → Bool
  | .bne rd off => !(rd == 0xF && off == 0xFF)
  | .illegal word => word != 0xFFFF
  | _ => true

end Sys2Proof
end

