-- ==== Sys2Proof/Decode.lean ====
section
/-! DEFINITION. The opcode map, the decoder, and the encoder written from the same tables (30_encoding.md). -/

namespace Sys2Proof

/-! The opcode map, one table (30_encoding.md R110, R111). The numbers 0x1, 0x2, 0x3, 0xC, 0xD, 0xE, 0xF and the word
0xFFFF are the source's; 0x0 and 0x4 to 0xB are the spec's assignment D1, D2 (assumption log 11). -/

def Opcode.syscall : Nibble := 0x0
def Opcode.add : Nibble := 0x1
def Opcode.addi : Nibble := 0x2
def Opcode.sub : Nibble := 0x3
def Opcode.and : Nibble := 0x4
def Opcode.or : Nibble := 0x5
def Opcode.xor : Nibble := 0x6
def Opcode.not : Nibble := 0x7
def Opcode.shl : Nibble := 0x8
def Opcode.shr : Nibble := 0x9
def Opcode.load : Nibble := 0xA
def Opcode.store : Nibble := 0xB
def Opcode.loadi : Nibble := 0xC
def Opcode.jmp : Nibble := 0xD
def Opcode.beq : Nibble := 0xE
def Opcode.bne : Nibble := 0xF

/-- The HALT word (30_encoding.md R106). -/
def haltWord : Word := 0xFFFF

/-! Field extraction, the same for every word (30_encoding.md R107). -/

def opField (w : Word) : Nibble := w.extractLsb' 12 4
def rdField (w : Word) : Reg := w.extractLsb' 8 4
def rsField (w : Word) : Reg := w.extractLsb' 4 4
def rtField (w : Word) : Reg := w.extractLsb' 0 4
def off4Field (w : Word) : Nibble := w.extractLsb' 0 4
def low8Field (w : Word) : Byte := w.extractLsb' 0 8
def payloadField (w : Word) : BitVec 12 := w.extractLsb' 0 12

/-- `decode(w)` under `ILLEGAL_SET` (30_encoding.md R109): the HALT word first, then the illegal nibbles, then the
opcode map. An opcode the map does not assign would be Illegal ("any opcode not assigned above", R113); under the map
above there is none. -/
def decode (illegalSet : List Nibble) (w : Word) : Instr :=
  let op := opField w
  if w = haltWord then .halt
  else if op ∈ illegalSet then .illegal w
  else if op = Opcode.syscall then .syscall (payloadField w)
  else if op = Opcode.add then .add (rdField w) (rsField w) (rtField w)
  else if op = Opcode.addi then .addi (rdField w) (low8Field w)
  else if op = Opcode.sub then .sub (rdField w) (rsField w) (rtField w)
  else if op = Opcode.and then .and (rdField w) (rsField w) (rtField w)
  else if op = Opcode.or then .or (rdField w) (rsField w) (rtField w)
  else if op = Opcode.xor then .xor (rdField w) (rsField w) (rtField w)
  else if op = Opcode.not then .not (rdField w) (rsField w) (rtField w)
  else if op = Opcode.shl then .shl (rdField w) (rsField w) (rtField w)
  else if op = Opcode.shr then .shr (rdField w) (rsField w) (rtField w)
  else if op = Opcode.load then .load (rdField w) (rsField w) (off4Field w)
  else if op = Opcode.store then .store (rdField w) (rsField w) (off4Field w)
  else if op = Opcode.loadi then .loadi (rdField w) (low8Field w)
  else if op = Opcode.jmp then .jmp (rdField w) (low8Field w)
  else if op = Opcode.beq then .beq (rdField w) (low8Field w)
  else if op = Opcode.bne then .bne (rdField w) (low8Field w)
  else .illegal w

/-! The layouts of R101 to R105, written out. -/

def layoutR (op : Nibble) (rd rs rt : Reg) : Word := op ++ rd ++ rs ++ rt
def layoutI (op : Nibble) (rd : Reg) (imm : Byte) : Word := op ++ rd ++ imm
def layoutS (op : Nibble) (payload : BitVec 12) : Word := op ++ payload

/-- `encode`, the inverse of `decode` on its image (30_encoding.md R119). R119 lists no word for an Illegal record: that
it is the carried word is the model's DESIGN CHOICE (assumption log 38). -/
def encode : Instr → Word
  | .halt => haltWord
  | .syscall payload => layoutS Opcode.syscall payload
  | .add rd rs rt => layoutR Opcode.add rd rs rt
  | .addi rd imm => layoutI Opcode.addi rd imm
  | .sub rd rs rt => layoutR Opcode.sub rd rs rt
  | .and rd rs rt => layoutR Opcode.and rd rs rt
  | .or rd rs rt => layoutR Opcode.or rd rs rt
  | .xor rd rs rt => layoutR Opcode.xor rd rs rt
  | .not rd rs rt => layoutR Opcode.not rd rs rt
  | .shl rd rs rt => layoutR Opcode.shl rd rs rt
  | .shr rd rs rt => layoutR Opcode.shr rd rs rt
  | .load rd rs off => layoutR Opcode.load rd rs off
  | .store rd rs off => layoutR Opcode.store rd rs off
  | .loadi rd imm => layoutI Opcode.loadi rd imm
  | .jmp rd off => layoutI Opcode.jmp rd off
  | .beq rd off => layoutI Opcode.beq rd off
  | .bne rd off => layoutI Opcode.bne rd off
  | .illegal word => word

/-- What the opcode field of a record holds: "4 bits for non-HALT, else sentinel 0xFFFF" (30_encoding.md R120). -/
inductive OpcodeField where
  | nibble (op : Nibble)
  | sentinel (word : Word)
  deriving DecidableEq, Repr

/-- The opcode field of a record (30_encoding.md R120). -/
def Instr.opcode : Instr → OpcodeField
  | .halt => .sentinel haltWord
  | .syscall _ => .nibble Opcode.syscall
  | .add _ _ _ => .nibble Opcode.add
  | .addi _ _ => .nibble Opcode.addi
  | .sub _ _ _ => .nibble Opcode.sub
  | .and _ _ _ => .nibble Opcode.and
  | .or _ _ _ => .nibble Opcode.or
  | .xor _ _ _ => .nibble Opcode.xor
  | .not _ _ _ => .nibble Opcode.not
  | .shl _ _ _ => .nibble Opcode.shl
  | .shr _ _ _ => .nibble Opcode.shr
  | .load _ _ _ => .nibble Opcode.load
  | .store _ _ _ => .nibble Opcode.store
  | .loadi _ _ => .nibble Opcode.loadi
  | .jmp _ _ => .nibble Opcode.jmp
  | .beq _ _ => .nibble Opcode.beq
  | .bne _ _ => .nibble Opcode.bne
  | .illegal word => .nibble (opField word)

/-- The opcode field is an illegal nibble; the sentinel of HALT is none (30_encoding.md R109). -/
def OpcodeField.isIllegal (illegalSet : List Nibble) : OpcodeField → Bool
  | .nibble op => illegalSet.contains op
  | .sentinel _ => false

/-- The well-formed records under `ILLEGAL_SET`: Halt always, Illegal exactly when its nibble is in the set, every
other record exactly when its nibble is not (30_encoding.md R109, R113, R116). -/
def Instr.decodable (illegalSet : List Nibble) (i : Instr) : Bool :=
  i.wellFormed &&
    match i with
    | .illegal word => illegalSet.contains (opField word)
    | j => !j.opcode.isIllegal illegalSet

/-- What the decoder reads from an opcode-table word: one 16-bit cell, read under the default `ILLEGAL_SET`. Bits above
`nbits` are zero; a number that does not fit in one cell is no instruction. -/
def decodeTableWord (nbits w : Nat) : Option Instr :=
  if nbits ≤ 16 ∧ w < 2 ^ nbits then some (decode Config.defaultIllegalSet (BitVec.ofNat 16 w)) else none

end Sys2Proof
end

