-- ==== Sys2Proof/Machine/State.lean ====
section
/-! DEFINITION. Everything the spec gives the machine to hold (10_state.md), as plain data, and its value after reset. -/

namespace Sys2Proof.Machine

/-- The six fault names of the machine, a closed enumeration with no numbers (60_exceptions.md R242, R249). -/
inductive FaultKind where
  | illegalInstruction
  | protectionFault
  | invalidAccess
  | unknownSyscall
  | privilegeViolation
  | cycleBudgetExhausted
  deriving DecidableEq, Repr

/-- A fatal fault with the fields it carries (60_exceptions.md R242 to R247). `pc` is the address of the offending
instruction. CycleBudgetExhausted is not fatal and is a status of `run` only (R248). -/
inductive FatalFault where
  /-- R243 -/
  | illegalInstruction (pc : Word)
  /-- R244 -/
  | protectionFault (addr : Word) (ring : Ring) (pc : Word)
  /-- R245 -/
  | invalidAccess (addr : Word) (ring : Ring) (pc : Word)
  /-- R246 -/
  | unknownSyscall (num pc : Word)
  /-- R247 -/
  | privilegeViolation (num : Word) (ring : Ring) (pc : Word)
  deriving DecidableEq, Repr

/-- The whole machine (10_state.md, the state tuple), with its construction parameters `HANDLERS` and `ILLEGAL_SET`
and the count of the handler calls made. -/
structure State where
  /-- x[1]..x[15]; x[0] is the constant 0 (10_state.md R20, R21) -/
  regs : Vector Word 15
  /-- 10_state.md R24 -/
  pc : Word
  /-- 10_state.md R27 -/
  sp : Word
  /-- 10_state.md R28 -/
  lr : Word
  /-- SR (10_state.md R29) -/
  flags : Flags
  /-- 10_state.md R32 -/
  cpl : Ring
  /-- MEM (10_state.md R36) -/
  mem : Memory
  /-- 10_state.md R37 -/
  cycles : Nat
  /-- 10_state.md R38 -/
  halted : Bool
  /-- the latch (10_state.md R39) -/
  fault : Option FatalFault
  /-- the parameter `HANDLERS` (00_scope.md R10); no step changes it -/
  handlers : List HandlerEntry
  /-- the parameter `ILLEGAL_SET` (00_scope.md R8); no step changes it -/
  illegalSet : List Nibble
  /-- the model's own counter: how many handler calls have returned, so that each call has outcomes of its own
  (assumption log 7) -/
  hostCalls : Nat
  deriving DecidableEq, Repr

/-- Why a step has no next state. The spec's own faults are not among these: they are latched in `State.fault` by a
next state (60_exceptions.md R241, assumption log 4). -/
inductive Fault where
  /-- Raised by SYSCALL when the relation of the handler it called has no outcome on the state at the call: the handler
  never returns and "the machine is stuck in that step" (45_system.md R224). Safe: the step has no outcome there
  either. -/
  | handlerNeverReturns (num : Word)
  deriving DecidableEq, Repr

/-- Why an instruction has no meaning in the model. -/
inductive Refusal where
  /-- Raised by an arm of `exec` for an instruction that has no meaning yet. Safe: nothing is claimed of it. No arm
  raises it now. -/
  | notModelled (mnemonic : String)
  deriving DecidableEq, Repr

/-- Reset is the instantiation of the VM (10_state.md R42, 70_reset_and_hazards.md R280), with the default parameters
(00_scope.md R8, R10). -/
def State.reset : State where
  regs := Vector.replicate 15 0
  pc := Config.resetPc
  sp := Config.resetSp
  lr := 0
  flags := ⟨false, false, false, false⟩
  cpl := .user
  mem := []
  cycles := 0
  halted := false
  fault := none
  handlers := []
  illegalSet := Config.defaultIllegalSet
  hostCalls := 0

end Sys2Proof.Machine
end

