-- ==== Sys2Proof/Machine/Ops.lean ====
section
/-! DEFINITION. The named operations over memory and registers, the access check, and the one operation that raises a
fault (10_state.md, 20_memory.md, 60_exceptions.md R241). -/

namespace Sys2Proof.Machine

/-- The outcome of a step, or of the execute stage of one. -/
abbrev Result := Host.Outcome State Fault Refusal

/-! ### Memory: bytes and cells -/

/-- What an unlisted byte reads as: reset leaves every cell zero (10_state.md R42, assumption log 2). -/
def Memory.unlisted : Byte := 0

/-- The canonical form: addresses strictly rising, inside the 65,536 cells, and no entry equal to what an unlisted
address reads as. -/
abbrev Memory.wf (m : Memory) : Prop :=
  m.Pairwise (fun x y => x.1 < y.1) ∧ ∀ c ∈ m, c.1 < 2 * Config.cellCount ∧ c.2 ≠ Memory.unlisted

/-- The byte at a byte index. -/
def Memory.readByte : Memory → Nat → Byte
  | [], _ => Memory.unlisted
  | (a, b) :: rest, k => if a = k then b else Memory.readByte rest k

/-- The list without the entry at a byte index. -/
def Memory.erase : Memory → Nat → Memory
  | [], _ => []
  | (a, b) :: rest, k => if a = k then Memory.erase rest k else (a, b) :: Memory.erase rest k

/-- Puts an entry before the first entry of a higher address. -/
def Memory.insert : Memory → Nat → Byte → Memory
  | [], k, v => [(k, v)]
  | (a, b) :: rest, k, v => if k < a then (k, v) :: (a, b) :: rest else (a, b) :: Memory.insert rest k v

/-- Writes one byte, keeping the canonical form. -/
def Memory.writeByte (m : Memory) (k : Nat) (v : Byte) : Memory :=
  if v = Memory.unlisted then m.erase k else (m.erase k).insert k v

/-- Where `mem` lists bits 7:0 of cell `a` (assumption log 1: the order of the image format, 20_memory.md R70). -/
def loByte (a : Word) : Nat := 2 * a.toNat

/-- Where `mem` lists bits 15:8 of cell `a`. -/
def hiByte (a : Word) : Nat := 2 * a.toNat + 1

/-- `MEM[a]`, the raw cell (10_state.md R36). -/
def Memory.readCell (m : Memory) (a : Word) : Word := m.readByte (hiByte a) ++ m.readByte (loByte a)

/-- `MEM[a] <- v`, raw (20_memory.md R82). -/
def Memory.writeCell (m : Memory) (a v : Word) : Memory :=
  (m.writeByte (loByte a) (v.extractLsb' 0 8)).writeByte (hiByte a) (v.extractLsb' 8 8)

/-- `MEM[a + i] <- words[i]` for consecutive cells, raw: the loaders and the restore of a snapshot. -/
def Memory.writeCells : Memory → Word → List Word → Memory
  | m, _, [] => m
  | m, a, w :: ws => Memory.writeCells (m.writeCell a w) (a + 1) ws

/-! ### Registers -/

/-- `x[i]`; `x[0]` is 0 (10_state.md R21). -/
def State.reg (s : State) (i : Reg) : Word := if i = 0 then 0 else s.regs.getD (i.toNat - 1) 0

/-- `x[i] <- v`; discarded when `i = 0` (10_state.md R22). -/
def State.setReg (s : State) (i : Reg) (v : Word) : State :=
  if i = 0 then s else { s with regs := s.regs.setIfInBounds (i.toNat - 1) v }

/-- `PC <- v` (10_state.md R25). -/
def State.setPc (s : State) (v : Word) : State := { s with pc := v }

/-- `write_sp(v)`: the host and handlers only (10_state.md R27). -/
def State.setSp (s : State) (v : Word) : State := { s with sp := v }

/-- `write_lr(v)`: the host and handlers only (10_state.md R28). -/
def State.setLr (s : State) (v : Word) : State := { s with lr := v }

/-- `flags <- (z, n, c, v)`, all four at once (10_state.md R31). -/
def State.setFlags (s : State) (f : Flags) : State := { s with flags := f }

/-- `set_ring(r)`, "only callable from the syscall gateway" (10_state.md R33). -/
def State.setRing (s : State) (r : Ring) : State := { s with cpl := r }

/-- `MEM[a] <- v`, raw. -/
def State.setCell (s : State) (a v : Word) : State := { s with mem := s.mem.writeCell a v }

/-- `halted <- true` (45_system.md R228). -/
def State.setHalted (s : State) : State := { s with halted := true }

/-- `fault <- f` (60_exceptions.md R241). -/
def State.latch (s : State) (f : FatalFault) : State := { s with fault := some f }

/-- `cycles <- cycles + 1` (40_execution_cycle.md R151). -/
def State.countCycle (s : State) : State := { s with cycles := s.cycles + 1 }

/-- One more handler call has returned (assumption log 7). -/
def State.countCall (s : State) : State := { s with hostCalls := s.hostCalls + 1 }

/-- `PC <- PC +16 1`, after a good fetch and before decode (40_execution_cycle.md R143). -/
def State.advancePc (s : State) : State := s.setPc (s.pc + 1)

/-- The address of the instruction being executed: PC already holds the next one (00_scope.md R16, 60_exceptions.md
R252, assumption log 33). -/
def State.pcOfInstr (s : State) : Word := s.pc - 1

/-- `read_flag(f)` (00_scope.md R19, 10_state.md R31). -/
def State.readFlag (s : State) : FlagName → Bool
  | .z => s.flags.z
  | .n => s.flags.n
  | .c => s.flags.c
  | .v => s.flags.v

/-- What a handler called now can read (45_system.md R224). -/
def State.view (s : State) : HandlerView :=
  { regs := s.regs, pc := s.pc, sp := s.sp, lr := s.lr, flags := s.flags, cpl := s.cpl, mem := s.mem }

/-! ### Regions and the access check -/

/-- The four regions (20_memory.md R61). -/
inductive Region where
  | code
  | data
  | stack
  | reserved
  deriving DecidableEq, Repr

/-- The three kinds of access (20_memory.md R63). -/
inductive AccessKind where
  | read
  | write
  | execute
  deriving DecidableEq, Repr

/-- The kinds a fault descriptor of memory can have (20_memory.md R65). -/
inductive ViolationKind where
  | protectionFault
  | invalidAccess
  deriving DecidableEq, Repr

/-- The fault descriptor memory returns on a violation (20_memory.md R65). -/
structure Violation where
  kind : ViolationKind
  addr : Word
  ring : Ring
  deriving DecidableEq, Repr

/-- The ring's number; smaller is more privileged (10_state.md R32). -/
def Ring.level : Ring → Nat
  | .kernel => 0
  | .supervisor => 1
  | .user => 2

/-- Region lookup, total (20_memory.md R62). -/
def region (a : Word) : Region :=
  if a ≤ 0x00FF then .code
  else if a ≤ 0xEFFF then .data
  else if a ≤ 0xFFFD then .stack
  else .reserved

/-- The access flags of the region table (20_memory.md R61). -/
def Region.accessFlags : Region → List AccessKind
  | .code => [.read, .execute]
  | .data => [.read, .write]
  | .stack => [.read, .write]
  | .reserved => []

/-- The minimum ring of the region table (20_memory.md R61). -/
def Region.minRing : Region → Ring
  | .code => .user
  | .data => .user
  | .stack => .user
  | .reserved => .kernel

/-- The access check (20_memory.md R65): the ring test, then the access flags. -/
def check (a : Word) (kind : AccessKind) (ring : Ring) : Except Violation Unit :=
  if (region a).minRing.level < ring.level then .error ⟨.protectionFault, a, ring⟩
  else if kind ∈ (region a).accessFlags then .ok ()
  else if (region a).accessFlags = [] then .error ⟨.invalidAccess, a, ring⟩
  else .error ⟨.protectionFault, a, ring⟩

/-- `MemRead(a, 1)` (20_memory.md R66). -/
def memRead (a : Word) (s : State) : Except Violation Word :=
  match check a .read s.cpl with
  | .ok _ => .ok (s.mem.readCell a)
  | .error d => .error d

/-- `MemWrite(a, 1, v)` (20_memory.md R67). -/
def memWrite (a v : Word) (s : State) : Except Violation State :=
  match check a .write s.cpl with
  | .ok _ => .ok (s.setCell a v)
  | .error d => .error d

/-- `MemFetch(a)` (20_memory.md R68). -/
def memFetch (a : Word) (s : State) : Except Violation Word :=
  match check a .execute s.cpl with
  | .ok _ => .ok (s.mem.readCell a)
  | .error d => .error d

/-! ### Faults -/

/-- The core adds the PC of the instruction to memory's descriptor (20_memory.md R65, 60_exceptions.md R244, R245). -/
def Violation.withPc (d : Violation) (pc : Word) : FatalFault :=
  match d.kind with
  | .protectionFault => .protectionFault d.addr d.ring pc
  | .invalidAccess => .invalidAccess d.addr d.ring pc

/-- The PC every fault carries (60_exceptions.md R242). -/
def FatalFault.pc : FatalFault → Word
  | .illegalInstruction pc => pc
  | .protectionFault _ _ pc => pc
  | .invalidAccess _ _ pc => pc
  | .unknownSyscall _ pc => pc
  | .privilegeViolation _ _ pc => pc

/-- The name of a fatal fault (60_exceptions.md R242). -/
def FatalFault.kind : FatalFault → FaultKind
  | .illegalInstruction _ => .illegalInstruction
  | .protectionFault _ _ _ => .protectionFault
  | .invalidAccess _ _ _ => .invalidAccess
  | .unknownSyscall _ _ => .unknownSyscall
  | .privilegeViolation _ _ _ => .privilegeViolation

/-- The column "fatal" of the fault list (60_exceptions.md R242). -/
def FaultKind.fatal : FaultKind → Bool
  | .cycleBudgetExhausted => false
  | .illegalInstruction => true
  | .protectionFault => true
  | .invalidAccess => true
  | .unknownSyscall => true
  | .privilegeViolation => true

/-- `raise F(info)` (60_exceptions.md R241): the step stops here with the latch set. Nothing is saved in the machine,
CPL does not change and control goes nowhere (R251); there is no return from a fault (R253). -/
def raise (f : FatalFault) (s : State) : Result := .next (s.latch f)

/-! ### The frame of a step -/

/-- The fetch stage: the word at PC, or the fault whose pc and addr are both PC (40_execution_cycle.md R142). -/
def fetch (s : State) : Except FatalFault Word :=
  match memFetch s.pc s with
  | .ok w => .ok w
  | .error d => .error (d.withPc s.pc)

/-- The end of a step: a completed step counts one cycle, a faulting one does not (40_execution_cycle.md R151). -/
def State.retire (s : State) : State :=
  match s.fault with
  | some _ => s
  | none => s.countCycle

/-- `retire` on the outcome of the execute stage. -/
def finish : Result → Result
  | .next s => .next s.retire
  | .fault r => .fault r
  | .refused r => .refused r

/-- What `step` returns, as read from the state it leaves (40_execution_cycle.md R149). -/
inductive StepStatus where
  | continue
  | halted
  | err (f : FatalFault)
  deriving DecidableEq, Repr

/-- Halted when the machine is halted, the latched fault when there is one, otherwise Continue
(40_execution_cycle.md R140, R141, R149). -/
def State.status (s : State) : StepStatus :=
  if s.halted then .halted
  else match s.fault with
    | some f => .err f
    | none => .continue

end Sys2Proof.Machine
end

