-- ==== Sys2Proof/Machine/Cycle.lean ====
section
/-! DEFINITION. The frame every instruction runs in (40_execution_cycle.md R140), with the execute stage as an argument. -/

namespace Sys2Proof.Machine

/-- One step: inert on a halted or faulted machine, else fetch, advance PC, decode, execute, count the cycle
(40_execution_cycle.md R140 to R145, R151). -/
def cycle (execute : Instr → State → Result) (s : State) : Result :=
  if s.halted then .next s
  else match s.fault with
    | some _ => .next s
    | none =>
      match fetch s with
      | .error f => raise f s
      | .ok w => finish (execute (decode s.illegalSet w) s.advancePc)

/-- The cell a step fetches from set to a word: how an instruction is placed where it runs next. -/
def placeWord (s : State) (nbits w : Nat) : State := s.setCell s.pc (BitVec.ofNat 16 (w % 2 ^ nbits))

end Sys2Proof.Machine
end

