-- ==== Sys2Proof/Machine/Operands.lean ====
section
/-! DEFINITION. The operand forms: immediates, effective addresses, branch targets, shift amounts (30_encoding.md R108). -/

namespace Sys2Proof.Machine

/-- imm8 of the I-type: zero-extended, 0..255 (30_encoding.md R108, 42_immediate.md R192). -/
def immOperand (imm : Byte) : Word := imm.setWidth 16

/-- off4 of the M-type: sign-extended, -8..+7 cells (30_encoding.md R108). -/
def off4Operand (off : Nibble) : Word := off.signExtend 16

/-- off8 of the C-type: sign-extended, -128..+127 cells (30_encoding.md R108). -/
def off8Operand (off : Byte) : Word := off.signExtend 16

/-- The effective address of LOAD and STORE, wrapping (43_load_store.md R200, 20_memory.md R81). -/
def effectiveAddress (rs : Reg) (off : Nibble) (s : State) : Word := s.reg rs + off4Operand off

/-- The target of a control transfer, from the already incremented PC, wrapping (44_control.md R210). -/
def branchTarget (off : Byte) (s : State) : Word := s.pc + off8Operand off

/-- The shift amount: bits 3:0 of the VALUE of register rt (41_alu_rtype.md R168). -/
def shiftAmount (rt : Reg) (s : State) : Nat := ((s.reg rt).extractLsb' 0 4).toNat

end Sys2Proof.Machine
end

