-- ==== Sys2Proof/Machine/Flags.lean ====
section
/-! DEFINITION. The flag computations and the one writeback of the ten ALU instructions (10_state.md R30, R31;
41_alu_rtype.md R160, R161). -/

namespace Sys2Proof.Machine

/-- Z and N of a result, with the C and V given (41_alu_rtype.md R161). -/
def resultFlags (r : Word) (c v : Bool) : Flags := ⟨r == 0, r.msb, c, v⟩

/-- A 16-bit two's-complement result would overflow: the exact value is outside -32768..32767. -/
def outOfSignedRange (exact : Int) : Bool := decide (exact < -32768 ∨ 32767 < exact)

/-- C of ADD and ADDI: carry out of bit 15 (41_alu_rtype.md R162). -/
def addCarry (a b : Word) : Bool := decide (65536 ≤ a.toNat + b.toNat)

/-- V of ADD and ADDI (41_alu_rtype.md R162). -/
def addOverflow (a b : Word) : Bool := outOfSignedRange (a.toInt + b.toInt)

/-- C of SUB: the borrow out of bit 15 (41_alu_rtype.md R163, assumption log 18). -/
def subBorrow (a b : Word) : Bool := decide (a.toNat < b.toNat)

/-- V of SUB (41_alu_rtype.md R163). -/
def subOverflow (a b : Word) : Bool := outOfSignedRange (a.toInt - b.toInt)

/-- The writeback and flag update of an ALU instruction: the result to rd (discarded when rd is R0), the flags from
the computed result (40_execution_cycle.md R146, R147; 41_alu_rtype.md R160, R171). -/
def aluWrite (rd : Reg) (r : Word) (c v : Bool) (s : State) : Result :=
  .next ((s.setReg rd r).setFlags (resultFlags r c v))

end Sys2Proof.Machine
end

