-- ==== Sys2Proof/Machine/Alu.lean ====
section
/-! DEFINITION. The R-type instructions (41_alu_rtype.md). Each runs with PC already advanced. -/

namespace Sys2Proof.Machine

/-- ADD (41_alu_rtype.md R162). -/
def execAdd (rd rs rt : Reg) (s : State) : Result :=
  let a := s.reg rs
  let b := s.reg rt
  aluWrite rd (a + b) (addCarry a b) (addOverflow a b) s

/-- SUB: Rs minus Rt (41_alu_rtype.md R163). -/
def execSub (rd rs rt : Reg) (s : State) : Result :=
  let a := s.reg rs
  let b := s.reg rt
  aluWrite rd (a - b) (subBorrow a b) (subOverflow a b) s

/-- AND (41_alu_rtype.md R164). -/
def execAnd (rd rs rt : Reg) (s : State) : Result := aluWrite rd (s.reg rs &&& s.reg rt) false false s

/-- OR (41_alu_rtype.md R165). -/
def execOr (rd rs rt : Reg) (s : State) : Result := aluWrite rd (s.reg rs ||| s.reg rt) false false s

/-- XOR (41_alu_rtype.md R166). -/
def execXor (rd rs rt : Reg) (s : State) : Result := aluWrite rd (s.reg rs ^^^ s.reg rt) false false s

/-- NOT; rt is not read (41_alu_rtype.md R167). -/
def execNot (rd rs : Reg) (s : State) : Result := aluWrite rd (s.reg rs ^^^ 0xFFFF) false false s

/-- SHL (41_alu_rtype.md R168; C and V cleared, assumption log 16). -/
def execShl (rd rs rt : Reg) (s : State) : Result := aluWrite rd (s.reg rs <<< shiftAmount rt s) false false s

/-- SHR, logical (41_alu_rtype.md R169; C and V cleared, assumption log 16). -/
def execShr (rd rs rt : Reg) (s : State) : Result := aluWrite rd (s.reg rs >>> shiftAmount rt s) false false s

end Sys2Proof.Machine
end

