-- ==== Sys2Proof/Machine/Control.lean ====
section
/-! DEFINITION. The C-type instructions (44_control.md). None writes a register, a flag or LR, and none faults (R214, R215). -/

namespace Sys2Proof.Machine

/-- A transfer that is taken or falls through (44_control.md R210). -/
def branchIf (taken : Bool) (off : Byte) (s : State) : Result :=
  .next (if taken then s.setPc (branchTarget off s) else s)

/-- JMP; rd is not read (44_control.md R211). -/
def execJmp (off : Byte) (s : State) : Result := branchIf true off s

/-- BEQ: taken when register rd is zero; no flag is read (44_control.md R212). -/
def execBeq (rd : Reg) (off : Byte) (s : State) : Result := branchIf (s.reg rd == 0) off s

/-- BNE: taken when register rd is not zero (44_control.md R213). -/
def execBne (rd : Reg) (off : Byte) (s : State) : Result := branchIf (s.reg rd != 0) off s

end Sys2Proof.Machine
end

