-- ==== Sys2Proof/Machine/Immediate.lean ====
section
/-! DEFINITION. The I-type instructions (42_immediate.md). -/

namespace Sys2Proof.Machine

/-- ADDI (42_immediate.md R190). -/
def execAddi (rd : Reg) (imm : Byte) (s : State) : Result :=
  let a := s.reg rd
  let b := immOperand imm
  aluWrite rd (a + b) (addCarry a b) (addOverflow a b) s

/-- LOADI: the old value of rd is not read (42_immediate.md R191; C and V cleared, assumption log 15). -/
def execLoadi (rd : Reg) (imm : Byte) (s : State) : Result := aluWrite rd (immOperand imm) false false s

end Sys2Proof.Machine
end

