-- ==== Sys2Proof/Machine/LoadStore.lean ====
section
/-! DEFINITION. The M-type instructions (43_load_store.md). Neither writes a flag (R203). -/

namespace Sys2Proof.Machine

/-- LOAD: the checked read also when rd is R0; a fault leaves rd unchanged (43_load_store.md R201). -/
def execLoad (rd rs : Reg) (off : Nibble) (s : State) : Result :=
  match memRead (effectiveAddress rs off s) s with
  | .ok v => .next (s.setReg rd v)
  | .error d => raise (d.withPc s.pcOfInstr) s

/-- STORE: rd is the data source; a fault leaves memory unchanged (43_load_store.md R202). -/
def execStore (rd rs : Reg) (off : Nibble) (s : State) : Result :=
  match memWrite (effectiveAddress rs off s) (s.reg rd) s with
  | .ok s' => .next s'
  | .error d => raise (d.withPc s.pcOfInstr) s

end Sys2Proof.Machine
end

