-- ==== Sys2Proof/Machine/System.lean ====
section
/-! DEFINITION. SYSCALL and its gateway, HALT, and the Illegal variant (45_system.md). -/

namespace Sys2Proof.Machine

/-- The entry of a dispatch table for a syscall number, all 16 bits compared (45_system.md R221). -/
def findHandler : List HandlerEntry → Word → Option HandlerEntry
  | [], _ => none
  | e :: rest, num => if e.num = num then some e else findHandler rest num

/-- The effect of one write of a handler (45_system.md R224, R226): memory is reached raw, a write to R0 is
discarded. -/
def applyWrite (s : State) : HandlerWrite Word → State
  | .reg i v => s.setReg i v
  | .pc v => s.setPc v
  | .sp v => s.setSp v
  | .lr v => s.setLr v
  | .flags f => s.setFlags f
  | .ring r => s.setRing r
  | .cell a v => s.setCell a v

/-- The writes of a handler, in order. -/
def applyWrites : State → List (HandlerWrite Word) → State
  | s, [] => s
  | s, w :: ws => applyWrites (applyWrite s w) ws

/-- A handler call that returns: its writes, then its return value into R1 over anything it put there itself
(45_system.md R224, R225). -/
def applyReply (s : State) (r : HandlerReply) : State := (applyWrites s r.writes).setReg 1 r.ret

/-- The value of an expression of a handler called in `s` (45_system.md R224). -/
def HandlerExpr.eval (s : State) : HandlerExpr → Word
  | .const v => v
  | .reg i => s.reg i
  | .pc => s.pc
  | .sp => s.sp
  | .lr => s.lr
  | .flag f => if s.readFlag f then 1 else 0
  | .cpl => BitVec.ofNat 16 s.cpl.level
  | .cell a => s.mem.readCell (a.eval s)
  | .add a b => a.eval s + b.eval s
  | .sub a b => a.eval s - b.eval s
  | .input source => Config.hostInput source s.hostCalls

/-- A described write with its address and value computed from the state at the call. -/
def HandlerWrite.eval (s : State) : HandlerWrite HandlerExpr → HandlerWrite Word
  | .reg i v => .reg i (v.eval s)
  | .pc v => .pc (v.eval s)
  | .sp v => .sp (v.eval s)
  | .lr v => .lr (v.eval s)
  | .flags f => .flags f
  | .ring r => .ring r
  | .cell a v => .cell (a.eval s) (v.eval s)

/-- What a handler called in `s` does: its relation between the state at the call and its outcome, with the choice among
several outcomes made by the free values; none where the relation has no outcome (45_system.md R224, assumption
log 7). -/
def HandlerBody.outcome (s : State) : HandlerBody → Option HandlerReply
  | .host id => Config.hostOutcome id s.hostCalls s.view
  | .returns writes ret => some ⟨writes.map (HandlerWrite.eval s), ret.eval s⟩
  | .ifZero test zero other => if test.eval s = 0 then zero.outcome s else other.outcome s
  | .never => none

/-- Runs the handler the gateway has selected: its outcome is applied, and with no outcome it never returns
(45_system.md R224, assumption log 8). -/
def callHandler (e : HandlerEntry) (num : Word) (s : State) : Result :=
  match e.body.outcome s with
  | none => .fault (.handlerNeverReturns num)
  | some r => .next (applyReply s.countCall r)

/-- SYSCALL (45_system.md R220, R222): the number from R1, then the table, then the ring filter, then the handler. -/
def execSyscall (s : State) : Result :=
  let num := s.reg 1
  match findHandler s.handlers num with
  | none => raise (.unknownSyscall num s.pcOfInstr) s
  | some e =>
    if e.minRing.level < s.cpl.level then raise (.privilegeViolation num s.cpl s.pcOfInstr) s
    else callHandler e num s

/-- HALT (45_system.md R228). -/
def execHalt (s : State) : Result := .next s.setHalted

/-- Illegal (45_system.md R229). -/
def execIllegal (s : State) : Result := raise (.illegalInstruction s.pcOfInstr) s

end Sys2Proof.Machine
end

