-- ==== Sys2Proof/Machine/Dispatch.lean ====
section
/-! DEFINITION. The execute stage: one arm for each decoded record (40_execution_cycle.md R145). -/

namespace Sys2Proof.Machine

def exec (i : Instr) (s : State) : Host.Outcome State Fault Refusal :=
  match i with
  | .halt => Sys2Proof.Machine.execHalt s
  | .syscall _ => Sys2Proof.Machine.execSyscall s
  | .add rd rs rt => Sys2Proof.Machine.execAdd rd rs rt s
  | .addi rd imm => Sys2Proof.Machine.execAddi rd imm s
  | .sub rd rs rt => Sys2Proof.Machine.execSub rd rs rt s
  | .and rd rs rt => Sys2Proof.Machine.execAnd rd rs rt s
  | .or rd rs rt => Sys2Proof.Machine.execOr rd rs rt s
  | .xor rd rs rt => Sys2Proof.Machine.execXor rd rs rt s
  | .not rd rs _ => Sys2Proof.Machine.execNot rd rs s
  | .shl rd rs rt => Sys2Proof.Machine.execShl rd rs rt s
  | .shr rd rs rt => Sys2Proof.Machine.execShr rd rs rt s
  | .load rd rs off => Sys2Proof.Machine.execLoad rd rs off s
  | .store rd rs off => Sys2Proof.Machine.execStore rd rs off s
  | .loadi rd imm => Sys2Proof.Machine.execLoadi rd imm s
  | .jmp _ off => Sys2Proof.Machine.execJmp off s
  | .beq rd off => Sys2Proof.Machine.execBeq rd off s
  | .bne rd off => Sys2Proof.Machine.execBne rd off s
  | .illegal _ => Sys2Proof.Machine.execIllegal s

end Sys2Proof.Machine
end

