-- ==== Sys2Proof/Machine/Step.lean ====
section
/-! DEFINITION. One step of the machine (40_execution_cycle.md R140). -/

namespace Sys2Proof.Machine

/-- `step()`: the cycle of Cycle.lean around the execute stage `exec`. What it returns to the host is `State.status`
of the next state (40_execution_cycle.md R149). -/
def step (s : State) : Host.Outcome State Fault Refusal := cycle exec s

/-- The state with an instruction word in the cell at PC, where the next step fetches (assumption log 32). -/
def State.withFetchWord (s : State) (nbits w : Nat) : State := placeWord s nbits w

end Sys2Proof.Machine
end

