-- ==== Sys2Proof/Machine/Embedder.lean ====
section
/-! DEFINITION. What the host can do to the machine between steps: construct, load, run, trace, install a handler,
snapshot, restore (70_reset_and_hazards.md R288 to R298). The register-file reads and writes of R288 are `State.reg`,
`State.setReg`, `State.setPc`, `State.setSp`, `State.setLr`, `State.readFlag` and the fields. -/

namespace Sys2Proof.Machine

/-! ### Construction and the dispatch table -/

/-- Construction with its parameters (70_reset_and_hazards.md R280, R284; 00_scope.md R8, R10). -/
def State.construct (handlers : List HandlerEntry) (illegalSet : List Nibble) : State :=
  { State.reset with handlers := handlers, illegalSet := illegalSet }

/-- "install syscall handler keyed by number and min-ring" (70_reset_and_hazards.md R293). A second handler under one
number is refused (93_implementation_defined.md row 15, assumption log 34). -/
def State.installHandler (e : HandlerEntry) (s : State) : Option State :=
  match findHandler s.handlers e.num with
  | some _ => none
  | none => some { s with handlers := s.handlers ++ [e] }

/-! ### Loaders -/

/-- `load_program(words, base)`: succeeds exactly when `base + len <= 0x0100`; sets no register (70_reset_and_hazards.md R289). -/
def State.loadProgram (words : List Word) (base : Word) (s : State) : Option State :=
  if base.toNat + words.length ≤ 0x0100 then some { s with mem := s.mem.writeCells base words } else none

/-- The words of a byte image, the even byte being bits 7:0; an odd number of bytes is refused (70_reset_and_hazards.md R295). -/
def imageWords : List Byte → Option (List Word)
  | [] => some []
  | [_] => none
  | lo :: hi :: rest =>
    match imageWords rest with
    | none => none
    | some ws => some ((hi ++ lo) :: ws)

/-- No cell of a range lies in the reserved region. -/
def rangeAvoidsReserved : Word → Nat → Bool
  | _, 0 => true
  | a, n + 1 => region a != .reserved && rangeAvoidsReserved (a + 1) n

/-- `load_image(bytes, load_addr)`: refuses to overflow memory and to write the reserved region, writing nothing then
(70_reset_and_hazards.md R295). -/
def State.loadImage (bytes : List Byte) (addr : Word) (s : State) : Option State :=
  match imageWords bytes with
  | none => none
  | some ws =>
    if addr.toNat + ws.length ≤ Config.cellCount ∧ rangeAvoidsReserved addr ws.length then
      some { s with mem := s.mem.writeCells addr ws }
    else none

/-! ### The hex text reader (70_reset_and_hazards.md R296, assumption log 30) -/

/-- The value of a hexadecimal digit, of either case. -/
def hexDigit (ch : Char) : Option Nat :=
  let n := ch.toNat
  if 48 ≤ n ∧ n ≤ 57 then some (n - 48)
  else if 65 ≤ n ∧ n ≤ 70 then some (n - 55)
  else if 97 ≤ n ∧ n ≤ 102 then some (n - 87)
  else none

/-- The number a run of hexadecimal digits writes. -/
def hexValue : List Char → Nat → Option Nat
  | [], acc => some acc
  | ch :: rest, acc =>
    match hexDigit ch with
    | none => none
    | some d => hexValue rest (16 * acc + d)

/-- The digits of a token: after `0x` one to four of them, bare exactly four. -/
def tokenDigits : List Char → Option (List Char)
  | '0' :: 'x' :: ds => if 1 ≤ ds.length ∧ ds.length ≤ 4 then some ds else none
  | ds => if ds.length = 4 then some ds else none

/-- One token, one 16-bit word. -/
def tokenWord (token : List Char) : Option Word :=
  match tokenDigits token with
  | none => none
  | some ds =>
    match hexValue ds 0 with
    | none => none
    | some n => some (BitVec.ofNat 16 n)

/-- The token read so far, as a list of no or one token. -/
def closeToken (cur : List Char) : List (List Char) := if cur = [] then [] else [cur]

/-- The whitespace-separated tokens of a text; a comment starts with `;` and runs to the end of the line. The character
that ends a line is the line feed alone: the model's DESIGN CHOICE (assumption log 30). -/
def hexTokens : (comment : Bool) → (cur : List Char) → List Char → List (List Char)
  | _, cur, [] => closeToken cur
  | true, cur, ch :: rest => hexTokens (ch != '\n') cur rest
  | false, cur, ch :: rest =>
    if ch = ';' then closeToken cur ++ hexTokens true [] rest
    else if ch.isWhitespace then closeToken cur ++ hexTokens false [] rest
    else hexTokens false (cur ++ [ch]) rest

/-- The words of the tokens; one malformed token refuses the whole text. -/
def tokenWords : List (List Char) → Option (List Word)
  | [] => some []
  | t :: ts =>
    match tokenWord t, tokenWords ts with
    | some w, some ws => some (w :: ws)
    | _, _ => none

/-- The hex text form of a program. -/
def parseHexText (text : String) : Option (List Word) := tokenWords (hexTokens false [] text.toList)

/-! ### Snapshots -/

/-- Architectural state and a slice of memory, with `cycles` and `halted` (70_reset_and_hazards.md R294). -/
structure Snapshot where
  regs : Vector Word 15
  pc : Word
  sp : Word
  lr : Word
  flags : Flags
  cpl : Ring
  cycles : Nat
  halted : Bool
  first : Word
  cells : List Word
  deriving DecidableEq, Repr

/-- The cells of a range, from its first address up. -/
def Memory.readCells (m : Memory) : Word → Nat → List Word
  | _, 0 => []
  | a, n + 1 => m.readCell a :: Memory.readCells m (a + 1) n

/-- `snapshot`: the slice is the `len` cells from `first`; a slice that leaves the address space is refused
(70_reset_and_hazards.md R294, assumption log 29). -/
def State.snapshot (first : Word) (len : Nat) (s : State) : Option Snapshot :=
  if first.toNat + len ≤ Config.cellCount then
    some { regs := s.regs, pc := s.pc, sp := s.sp, lr := s.lr, flags := s.flags, cpl := s.cpl, cycles := s.cycles,
           halted := s.halted, first := first, cells := s.mem.readCells first len }
  else none

/-- `restore`: writes the cells raw and clears the fault latch; the parameters stay (70_reset_and_hazards.md R294). -/
def State.restore (p : Snapshot) (s : State) : State :=
  { s with regs := p.regs, pc := p.pc, sp := p.sp, lr := p.lr, flags := p.flags, cpl := p.cpl, cycles := p.cycles,
           halted := p.halted, mem := s.mem.writeCells p.first p.cells, fault := none }

/-! ### Running -/

/-- How a call of `run` ends (70_reset_and_hazards.md R291). The last two are the model's: a handler that never
returns, and an instruction without a meaning. -/
inductive RunStatus where
  /-- Halted -/
  | halted
  /-- Err(f) -/
  | err (f : FatalFault)
  /-- CycleBudgetExhausted with its PC and the cycles consumed (60_exceptions.md R248) -/
  | cycleBudgetExhausted (pc : Word) (cycles : Nat)
  /-- the run is stuck in a step (45_system.md R224) -/
  | stuck (f : Fault)
  /-- the model refuses the instruction -/
  | refused (r : Refusal)
  deriving DecidableEq, Repr

/-- The name under which a status is reported as a fault, if it is one (60_exceptions.md R242, R248). -/
def RunStatus.faultKind : RunStatus → Option FaultKind
  | .halted => none
  | .err f => some f.kind
  | .cycleBudgetExhausted _ _ => some .cycleBudgetExhausted
  | .stuck _ => none
  | .refused _ => none

/-- The final status, the cycles consumed in this call, and the state left. -/
structure RunEnd where
  status : RunStatus
  consumed : Nat
  state : State
  deriving DecidableEq, Repr

/-- The loop of `run`: `fuel` steps are still permitted and `n` have completed (70_reset_and_hazards.md R291). -/
def runLoop : (fuel n : Nat) → State → RunEnd
  | 0, n, s => ⟨.cycleBudgetExhausted s.pc n, n, s⟩
  | fuel + 1, n, s =>
    match step s with
    | .fault f => ⟨.stuck f, n, s⟩
    | .refused r => ⟨.refused r, n, s⟩
    | .next t =>
      match t.status with
      | .err f => ⟨.err f, n, t⟩
      | .halted => ⟨.halted, n + 1, t⟩
      | .continue => runLoop fuel (n + 1) t

/-- `run(max_cycles)` (70_reset_and_hazards.md R291). -/
def run (max : Nat) (s : State) : RunEnd :=
  match s.status with
  | .halted => ⟨.halted, 0, s⟩
  | .err f => ⟨.err f, 0, s⟩
  | .continue => runLoop max 0 s

/-- The loop of `trace`: as `runLoop`, with the records of the completed steps in program order. A record is what the
observer makes of the states before and after a step; its content is not specified (70_reset_and_hazards.md R292). -/
def traceLoop {ρ : Type} (record : State → State → ρ) : (fuel n : Nat) → State → RunEnd × List ρ
  | 0, n, s => (⟨.cycleBudgetExhausted s.pc n, n, s⟩, [])
  | fuel + 1, n, s =>
    match step s with
    | .fault f => (⟨.stuck f, n, s⟩, [])
    | .refused r => (⟨.refused r, n, s⟩, [])
    | .next t =>
      match t.status with
      | .err f => (⟨.err f, n, t⟩, [])
      | .halted => (⟨.halted, n + 1, t⟩, [record s t])
      | .continue => ((traceLoop record fuel (n + 1) t).1, record s t :: (traceLoop record fuel (n + 1) t).2)

/-- `trace(max_cycles, sink)`: "identical to `run` but emits a trace record per step" (70_reset_and_hazards.md R292). -/
def trace {ρ : Type} (record : State → State → ρ) (max : Nat) (s : State) : RunEnd × List ρ :=
  match s.status with
  | .halted => (⟨.halted, 0, s⟩, [])
  | .err f => (⟨.err f, 0, s⟩, [])
  | .continue => traceLoop record max 0 s

end Sys2Proof.Machine
end

