-- ==== Sys2Proof/Safety.lean ====
section
/-! DEFINITION. The terms claims are stated in: live machines, frames, the invariant of the state, the duties of the
host's handlers (10_state.md R43, 45_system.md R230, 60_exceptions.md R242 to R252). -/

namespace Sys2Proof.Machine

/-- A machine a step moves: neither halted nor faulted (40_execution_cycle.md R141). -/
def State.Live (s : State) : Prop := s.halted = false ∧ s.fault = none

/-! ### Frames: what is unchanged from `s` to `t` -/

/-- Every register reads as before. -/
def SameRegs (s t : State) : Prop := ∀ i : Reg, t.reg i = s.reg i

/-- Every register but `d` reads as before. -/
def SameRegsExcept (d : Reg) (s t : State) : Prop := ∀ i : Reg, i ≠ d → t.reg i = s.reg i

/-- Every byte of memory reads as before. -/
def SameBytes (s t : State) : Prop := ∀ k : Nat, t.mem.readByte k = s.mem.readByte k

/-- Every byte of memory outside cell `a` reads as before. -/
def SameBytesExcept (a : Word) (s t : State) : Prop :=
  ∀ k : Nat, k ≠ loByte a → k ≠ hiByte a → t.mem.readByte k = s.mem.readByte k

/-- Everything but the general registers, PC, the flags and memory is as before. -/
structure SameSystem (s t : State) : Prop where
  sp : t.sp = s.sp
  lr : t.lr = s.lr
  cpl : t.cpl = s.cpl
  cycles : t.cycles = s.cycles
  halted : t.halted = s.halted
  fault : t.fault = s.fault
  handlers : t.handlers = s.handlers
  illegalSet : t.illegalSet = s.illegalSet
  hostCalls : t.hostCalls = s.hostCalls

/-- The whole effect of an ALU instruction of result `r` and flags `f`: rd holds `r` unless it is R0, which stays 0,
SR is `f`, and nothing else changes (41_alu_rtype.md R160, R171). -/
structure AluEffect (rd : Reg) (r : Word) (f : Flags) (s t : State) : Prop where
  result : t.reg rd = if rd = 0 then 0 else r
  flags : t.flags = f
  regs : SameRegsExcept rd s t
  pc : t.pc = s.pc
  bytes : SameBytes s t
  system : SameSystem s t

/-! ### The invariant -/

/-- What a latched fault records of the state it is latched in: the PC has passed the faulting instruction, or stands
at it when the fetch itself faulted; the ring and the syscall number are the current ones; InvalidAccess is of ring 0 on
the reserved region (60_exceptions.md R243 to R247, R252). -/
def FatalFault.Describes (s : State) : FatalFault → Prop
  | .illegalInstruction pc => s.pc = pc + 1
  | .protectionFault addr ring pc => ring = s.cpl ∧ (s.pc = pc + 1 ∨ (s.pc = pc ∧ addr = pc))
  | .invalidAccess addr ring pc =>
    ring = .kernel ∧ s.cpl = .kernel ∧ region addr = .reserved ∧ (s.pc = pc + 1 ∨ (s.pc = pc ∧ addr = pc))
  | .unknownSyscall num pc => s.pc = pc + 1 ∧ num = s.reg 1 ∧ findHandler s.handlers num = none
  | .privilegeViolation num ring pc =>
    s.pc = pc + 1 ∧ num = s.reg 1 ∧ ring = s.cpl ∧
      ∃ e, findHandler s.handlers num = some e ∧ e.minRing.level < ring.level

/-- The invariant of the state: memory is canonical, the dispatch table is a partial map, a halted machine has no
fault, and a latched fault describes the state. -/
structure State.Inv (s : State) : Prop where
  mem : s.mem.wf
  table : (s.handlers.map HandlerEntry.num).Nodup
  ending : s.halted = true → s.fault = none
  latched : ∀ f, s.fault = some f → f.Describes s

/-! ### The duties of the host's handlers -/

/-- Duties 2 and 4 of a handler of declared minimum ring `m` (45_system.md R230): it writes code and reserved cells
only if `m` is ring 0, and SP only to even values. Duties 1 and 5 hold of every reply, and duty 3 by the type of CPL. -/
def HandlerReply.KeepsDuties (m : Ring) (r : HandlerReply) : Prop :=
  (∀ a v, .cell a v ∈ r.writes → region a = .code ∨ region a = .reserved → m = .kernel) ∧
  (∀ v, .sp v ∈ r.writes → v.getLsbD 0 = false)

/-- SYSCALL executed in `s`, with PC already advanced, calls the handler of entry `e`, and its outcome is `r`
(45_system.md R222, R224). -/
structure State.Calls (s : State) (e : HandlerEntry) (r : HandlerReply) : Prop where
  known : findHandler s.handlers (s.reg 1) = some e
  allowed : s.cpl.level ≤ e.minRing.level
  outcome : e.body.outcome s = some r

/-- The instruction the next step of a live machine executes, when the fetch is allowed (40_execution_cycle.md R144). -/
def State.nextInstr (s : State) : Instr := decode s.illegalSet (s.mem.readCell s.pc)

/-! ### Sequences of instructions, and the reports of runs -/

/-- The ten ALU instructions, the ones that write the flags (10_state.md R31, 40_execution_cycle.md R147). -/
def writesFlags : Instr → Bool
  | .add _ _ _ => true
  | .addi _ _ => true
  | .sub _ _ _ => true
  | .and _ _ _ => true
  | .or _ _ _ => true
  | .xor _ _ _ => true
  | .not _ _ _ => true
  | .shl _ _ _ => true
  | .shr _ _ _ => true
  | .loadi _ _ => true
  | .halt => false
  | .syscall _ => false
  | .load _ _ _ => false
  | .store _ _ _ => false
  | .jmp _ _ => false
  | .beq _ _ => false
  | .bne _ _ => false
  | .illegal _ => false

/-- The instructions whose execute stage reads CPL: LOAD and STORE through the access check, SYSCALL through the ring
filter (10_state.md R33, 40_execution_cycle.md R145). -/
def readsCpl : Instr → Bool
  | .load _ _ _ => true
  | .store _ _ _ => true
  | .syscall _ => true
  | .halt => false
  | .add _ _ _ => false
  | .addi _ _ => false
  | .sub _ _ _ => false
  | .and _ _ _ => false
  | .or _ _ _ => false
  | .xor _ _ _ => false
  | .not _ _ _ => false
  | .shl _ _ _ => false
  | .shr _ _ _ => false
  | .loadi _ _ => false
  | .jmp _ _ => false
  | .beq _ _ => false
  | .bne _ _ => false
  | .illegal _ => false

/-- An outcome with its next state, if any, changed by a function. -/
def mapNext (f : State → State) : Result → Result
  | .next t => .next (f t)
  | .fault r => .fault r
  | .refused r => .refused r

/-- The end of a run counted from `k` cycles earlier (70_reset_and_hazards.md R297: "modulo cycle-bound reporting"). -/
def RunEnd.after (k : Nat) (e : RunEnd) : RunEnd :=
  { status := match e.status with
      | .cycleBudgetExhausted pc n => .cycleBudgetExhausted pc (k + n)
      | other => other
    consumed := k + e.consumed
    state := e.state }

end Sys2Proof.Machine
end

