-- ==== Sys2Proof/Certificates/Slice0/Obligations.lean ====
section
/-! DEFINITION. The statements for the provers. `exec` runs with PC already advanced past the instruction (00_scope.md
R16), so in a statement about `exec` the instruction's own address is `s.pc - 1`; in one about `step` it is `s.pc`. -/

open Sys2Proof Sys2Proof.Machine

/-! ### Encoding -/

/-- The words printed by the source, and some of the spec's derived ones, decode as listed, one at least for each row of
the opcode table (95_test_vectors.md 1.1, 2.1; the numbers 0x0 and 0x4 to 0xB are decisions D1 and D2, log 11). -/
def Obligations.PrintedWordsDecode : Prop :=
  decode [] 0xC105 = .loadi 1 0x05 ∧ decode [] 0xC203 = .loadi 2 0x03 ∧ decode [] 0x1312 = .add 3 1 2 ∧
  decode [] 0xFFFF = .halt ∧ decode [] 0x2101 = .addi 1 0x01 ∧ decode [] 0xF3FD = .bne 3 0xFD ∧
  decode [] 0x3321 = .sub 3 2 1 ∧ decode [] 0x4123 = .and 1 2 3 ∧ decode [] 0x5123 = .or 1 2 3 ∧
  decode [] 0x6123 = .xor 1 2 3 ∧ decode [] 0x8223 = .shl 2 2 3 ∧ decode [] 0xD0FF = .jmp 0 0xFF ∧ decode [] 0xE202 = .beq 2 0x02 ∧
  decode [] 0x754F = .not 5 4 0xF ∧ decode [] 0x9123 = .shr 1 2 3 ∧ decode [] 0xA41F = .load 4 1 0xF ∧
  decode [] 0xB120 = .store 1 2 0 ∧ decode [] 0x0ABC = .syscall 0xABC ∧ decode [0xE] 0xE202 = .illegal 0xE202 ∧
  decode [0xF] 0xFFFF = .halt

/-- Decoding an encoded record gives it back, for every record in the decoder's image under any `ILLEGAL_SET`
(30_encoding.md section 5; the ignored fields are kept by decision D4, log 12; the word of an Illegal record is the
model's choice, log 38). -/
def Obligations.DecodeOfEncode : Prop :=
  ∀ (illegalSet : List Nibble) (i : Instr), i.decodable illegalSet = true → decode illegalSet (encode i) = i

/-- Encoding a decoded word gives the word back, for every word (30_encoding.md section 5; D4, log 12; for an illegal
word, which the source's round trip leaves out, it is the model's choice, log 38). -/
def Obligations.EncodeOfDecode : Prop :=
  ∀ (illegalSet : List Nibble) (w : Word), encode (decode illegalSet w) = w

/-- Whatever the decoder returns is a well-formed record under the `ILLEGAL_SET` it was given (30_encoding.md
sections 3 and 4). -/
def Obligations.DecodedRecordsAreDecodable : Prop :=
  ∀ (illegalSet : List Nibble) (w : Word), (decode illegalSet w).decodable illegalSet = true

/-- One encoding is shadowed: BNE RF, -1 has HALT's word, no word decodes to it, and every other BNE is encoded
(30_encoding.md R116). -/
def Obligations.HaltShadowsOneBranch : Prop :=
  encode (.bne 0xF 0xFF) = 0xFFFF ∧
  (∀ (illegalSet : List Nibble) (w : Word), decode illegalSet w = .halt ↔ w = 0xFFFF) ∧
  (∀ (illegalSet : List Nibble) (w : Word), decode illegalSet w ≠ .bne 0xF 0xFF) ∧
  (∀ (rd : Reg) (off : Byte), ¬ (rd = 0xF ∧ off = 0xFF) → decode [] (encode (.bne rd off)) = .bne rd off)

/-- A word is Illegal exactly when it is not HALT and its opcode nibble is in `ILLEGAL_SET`; the record carries the word
(30_encoding.md section 4; decision D3, log 10). -/
def Obligations.IllegalByNibbleAlone : Prop :=
  ∀ (illegalSet : List Nibble) (w v : Word),
    decode illegalSet w = .illegal v ↔ (v = w ∧ w ≠ 0xFFFF ∧ opField w ∈ illegalSet)

/-! ### Registers, operands, memory -/

/-- Every register is 0 at reset, a register reads the value last written to it, R0 reads 0 always, and a write to R0
changes nothing (10_state.md R21, R22). -/
def Obligations.RegisterFileReadsAndWrites : Prop :=
  (∀ i : Reg, State.reset.reg i = 0) ∧
  ∀ (s : State) (i : Reg) (v : Word),
    s.reg 0 = 0 ∧ s.setReg 0 v = s ∧ (i ≠ 0 → (s.setReg i v).reg i = v) ∧ SameRegsExcept i s (s.setReg i v) ∧
    (s.setReg i v).pc = s.pc ∧ (s.setReg i v).flags = s.flags ∧ SameBytes s (s.setReg i v) ∧
    SameSystem s (s.setReg i v)

/-- The operand forms over the integers: imm8 is unsigned, off4 and off8 are signed, addresses and targets wrap modulo
65536, and a shift amount is the register's value modulo 16 (30_encoding.md R108, 43_load_store.md R200, 44_control.md
R210; the wrap of targets is decision D14, log 21, the shift amount D10, log 17). -/
def Obligations.OperandFormsOverIntegers : Prop :=
  ∀ (s : State) (r : Reg) (off4 : Nibble) (byte : Byte),
    (immOperand byte).toNat = byte.toNat ∧
    ((effectiveAddress r off4 s).toNat : Int) = ((s.reg r).toNat + off4.toInt) % 65536 ∧
    ((branchTarget byte s).toNat : Int) = (s.pc.toNat + byte.toInt) % 65536 ∧
    shiftAmount r s = (s.reg r).toNat % 16

/-- The region lookup (20_memory.md R62). -/
def Obligations.RegionLookup : Prop :=
  ∀ a : Word,
    region a = if a.toNat ≤ 0x00FF then .code else if a.toNat ≤ 0xEFFF then .data
      else if a.toNat ≤ 0xFFFD then .stack else .reserved

/-- The outcome of every instruction access by region, kind and ring: the table of 20_memory.md section 2. The kinds of
fault are the spec's decision D6 (log 13). -/
def Obligations.AccessOutcomes : Prop :=
  ∀ (a : Word) (ring : Ring),
    (region a = .code → check a .read ring = .ok () ∧ check a .execute ring = .ok () ∧
      check a .write ring = .error ⟨.protectionFault, a, ring⟩) ∧
    (region a = .data ∨ region a = .stack → check a .read ring = .ok () ∧ check a .write ring = .ok () ∧
      check a .execute ring = .error ⟨.protectionFault, a, ring⟩) ∧
    (region a = .reserved → ∀ kind, check a kind ring =
      .error ⟨if ring = .kernel then .invalidAccess else .protectionFault, a, ring⟩)

/-- MemRead, MemWrite and MemFetch (20_memory.md R66, R67, R68): with the check allowed they give the cell or write it
and nothing else; with the check refused they give its descriptor. The word at PC is read by MemFetch. -/
def Obligations.CheckedAccesses : Prop :=
  ∀ (s : State) (a v : Word),
    (check a .read s.cpl = .ok () → memRead a s = .ok (s.mem.readCell a)) ∧
    (∀ d, check a .read s.cpl = .error d → memRead a s = .error d) ∧
    (check a .execute s.cpl = .ok () → memFetch a s = .ok (s.mem.readCell a)) ∧
    (∀ d, check a .execute s.cpl = .error d → memFetch a s = .error d) ∧
    (∀ w, memFetch s.pc s = .ok w → fetch s = .ok w) ∧
    (check a .write s.cpl = .ok () → ∃ t, memWrite a v s = .ok t ∧ t.mem.readCell a = v ∧ SameBytesExcept a s t ∧
      SameRegs s t ∧ t.pc = s.pc ∧ t.flags = s.flags ∧ SameSystem s t) ∧
    (∀ d, check a .write s.cpl = .error d → memWrite a v s = .error d)

/-- The canonical form is canonical: two such memories with the same cells are the same list (the model's layout of
10_state.md R36, logs 1 and 2). -/
def Obligations.EqualCellsEqualMemory : Prop :=
  ∀ m m' : Memory, m.wf → m'.wf → (∀ a : Word, m.readCell a = m'.readCell a) → m = m'

/-! ### The step -/

/-- A step of a live machine whose PC is in the code region is `exec` of the decoded instruction with PC advanced, and
then one more cycle unless a fault was latched (40_execution_cycle.md section 1; the count is decision D16, log 22). -/
def Obligations.StepRunsDecodedInstruction : Prop :=
  ∀ (s : State) (i : Instr), s.Live → region s.pc = .code → decode s.illegalSet (s.mem.readCell s.pc) = i →
    step s = match exec i { s with pc := s.pc + 1 } with
      | .next t => .next (if t.fault = none then { t with cycles := t.cycles + 1 } else t)
      | .fault r => .fault r
      | .refused r => .refused r

/-- A fetch that MemFetch refuses faults with PC added to the descriptor, and so does a step outside the code region,
with pc and addr both PC, changing nothing but the latch (40_execution_cycle.md section 1; decisions D6 and D7, logs 13
and 14). -/
def Obligations.FetchOutsideCodeFaults : Prop :=
  ∀ s : State,
    (∀ d, memFetch s.pc s = .error d → fetch s = .error (d.withPc s.pc)) ∧
    (s.Live → region s.pc ≠ .code →
      step s = .next { s with fault := some (if region s.pc = .reserved ∧ s.cpl = .kernel
        then .invalidAccess s.pc s.cpl s.pc else .protectionFault s.pc s.cpl s.pc) })

/-- A step of a halted or faulted machine changes nothing (40_execution_cycle.md section 1; decision D15, log 5). -/
def Obligations.StepOfEndedMachineIsInert : Prop :=
  ∀ s : State, s.halted = true ∨ s.fault ≠ none → step s = .next s

/-! ### ALU instructions -/

/-- ADD: its word, its result, its four flags, and that nothing else changes (41_alu_rtype.md R162). -/
def Obligations.AddCompletes : Prop :=
  ∀ (illegalSet : List Nibble) (rd rs rt : Reg) (s : State),
    (0x1 ∉ illegalSet → decode illegalSet (0x1#4 ++ rd ++ rs ++ rt : Word) = .add rd rs rt) ∧
    let a := s.reg rs
    let b := s.reg rt
    let r : Word := BitVec.ofNat 16 ((a.toNat + b.toNat) % 65536)
    ∃ t, exec (.add rd rs rt) s = .next t ∧
      AluEffect rd r ⟨decide (r.toNat = 0), decide (32768 ≤ r.toNat), decide (65536 ≤ a.toNat + b.toNat),
        decide (¬ (-32768 ≤ a.toInt + b.toInt ∧ a.toInt + b.toInt ≤ 32767))⟩ s t

/-- SUB: its word, and Rs minus Rt; C is the borrow (41_alu_rtype.md section 2; the sense of C is decision D11,
log 18). -/
def Obligations.SubCompletes : Prop :=
  ∀ (illegalSet : List Nibble) (rd rs rt : Reg) (s : State),
    (0x3 ∉ illegalSet → decode illegalSet (0x3#4 ++ rd ++ rs ++ rt : Word) = .sub rd rs rt) ∧
    let a := s.reg rs
    let b := s.reg rt
    let r : Word := BitVec.ofInt 16 ((a.toNat : Int) - b.toNat)
    ∃ t, exec (.sub rd rs rt) s = .next t ∧
      AluEffect rd r ⟨decide (r.toNat = 0), decide (32768 ≤ r.toNat), decide (a.toNat < b.toNat),
        decide (¬ (-32768 ≤ a.toInt - b.toInt ∧ a.toInt - b.toInt ≤ 32767))⟩ s t

/-- AND, OR, XOR and NOT: their words, their results bit by bit, Z and N written and C and V cleared (41_alu_rtype.md
section 3; the four opcode numbers are decision D1, log 11). -/
def Obligations.LogicCompletes : Prop :=
  ∀ (illegalSet : List Nibble) (rd rs rt : Reg) (s : State),
    (0x4 ∉ illegalSet → decode illegalSet (0x4#4 ++ rd ++ rs ++ rt : Word) = .and rd rs rt) ∧
    (0x5 ∉ illegalSet → decode illegalSet (0x5#4 ++ rd ++ rs ++ rt : Word) = .or rd rs rt) ∧
    (0x6 ∉ illegalSet → decode illegalSet (0x6#4 ++ rd ++ rs ++ rt : Word) = .xor rd rs rt) ∧
    (0x7 ∉ illegalSet → decode illegalSet (0x7#4 ++ rd ++ rs ++ rt : Word) = .not rd rs rt) ∧
    (∃ t r, exec (.and rd rs rt) s = .next t ∧
      (∀ k < 16, r.getLsbD k = ((s.reg rs).getLsbD k && (s.reg rt).getLsbD k)) ∧
      AluEffect rd r ⟨decide (r.toNat = 0), decide (32768 ≤ r.toNat), false, false⟩ s t) ∧
    (∃ t r, exec (.or rd rs rt) s = .next t ∧
      (∀ k < 16, r.getLsbD k = ((s.reg rs).getLsbD k || (s.reg rt).getLsbD k)) ∧
      AluEffect rd r ⟨decide (r.toNat = 0), decide (32768 ≤ r.toNat), false, false⟩ s t) ∧
    (∃ t r, exec (.xor rd rs rt) s = .next t ∧
      (∀ k < 16, r.getLsbD k = ((s.reg rs).getLsbD k ^^ (s.reg rt).getLsbD k)) ∧
      AluEffect rd r ⟨decide (r.toNat = 0), decide (32768 ≤ r.toNat), false, false⟩ s t) ∧
    (∃ t r, exec (.not rd rs rt) s = .next t ∧
      (∀ k < 16, r.getLsbD k = !(s.reg rs).getLsbD k) ∧
      AluEffect rd r ⟨decide (r.toNat = 0), decide (32768 ≤ r.toNat), false, false⟩ s t)

/-- SHL and SHR: their words, and a shift by bits 3:0 of the VALUE of Rt, zeros entering, C and V cleared
(41_alu_rtype.md section 4; the opcode numbers are decision D1, log 11, C and V D9, log 16, the amount D10, log 17). -/
def Obligations.ShiftsComplete : Prop :=
  ∀ (illegalSet : List Nibble) (rd rs rt : Reg) (s : State),
    (0x8 ∉ illegalSet → decode illegalSet (0x8#4 ++ rd ++ rs ++ rt : Word) = .shl rd rs rt) ∧
    (0x9 ∉ illegalSet → decode illegalSet (0x9#4 ++ rd ++ rs ++ rt : Word) = .shr rd rs rt) ∧
    let a := (s.reg rs).toNat
    let n := (s.reg rt).toNat % 16
    let l : Word := BitVec.ofNat 16 (a * 2 ^ n % 65536)
    let r : Word := BitVec.ofNat 16 (a / 2 ^ n)
    (∃ t, exec (.shl rd rs rt) s = .next t ∧
      AluEffect rd l ⟨decide (l.toNat = 0), decide (32768 ≤ l.toNat), false, false⟩ s t) ∧
    (∃ t, exec (.shr rd rs rt) s = .next t ∧
      AluEffect rd r ⟨decide (r.toNat = 0), decide (32768 ≤ r.toNat), false, false⟩ s t)

/-- ADDI: its word, its result and its four flags; the immediate is never negative (42_immediate.md R190). -/
def Obligations.AddiCompletes : Prop :=
  ∀ (illegalSet : List Nibble) (rd : Reg) (imm : Byte) (s : State),
    (0x2 ∉ illegalSet → decode illegalSet (0x2#4 ++ rd ++ imm : Word) = .addi rd imm) ∧
    let a := s.reg rd
    let r : Word := BitVec.ofNat 16 ((a.toNat + imm.toNat) % 65536)
    ∃ t, exec (.addi rd imm) s = .next t ∧
      AluEffect rd r ⟨decide (r.toNat = 0), decide (32768 ≤ r.toNat), decide (65536 ≤ a.toNat + imm.toNat),
        decide (32767 < a.toInt + imm.toNat)⟩ s t

/-- LOADI: its word, and the zero-extended immediate; N, C and V are 0 (42_immediate.md; C and V are decision D8,
log 15). -/
def Obligations.LoadiCompletes : Prop :=
  ∀ (illegalSet : List Nibble) (rd : Reg) (imm : Byte) (s : State),
    (0xC ∉ illegalSet → decode illegalSet (0xC#4 ++ rd ++ imm : Word) = .loadi rd imm) ∧
    ∃ t, exec (.loadi rd imm) s = .next t ∧
      AluEffect rd (BitVec.ofNat 16 imm.toNat) ⟨decide (imm.toNat = 0), false, false, false⟩ s t

/-- The bit forms of signed overflow that the spec derives from the range test (41_alu_rtype.md section 2, marked
[derived] there). -/
def Obligations.OverflowBitForms : Prop :=
  ∀ a b : Word,
    (addOverflow a b = true ↔ (a.getLsbD 15 = b.getLsbD 15 ∧ (a + b).getLsbD 15 ≠ a.getLsbD 15)) ∧
    (subOverflow a b = true ↔ (a.getLsbD 15 ≠ b.getLsbD 15 ∧ (a - b).getLsbD 15 ≠ a.getLsbD 15))

/-- The ignored fields, rt of NOT, rd of JMP and the payload of SYSCALL, change nothing (30_encoding.md section 4;
decision D4, log 12). -/
def Obligations.IgnoredFieldsHaveNoEffect : Prop :=
  ∀ (s : State) (rd rs rt rt' : Reg) (off : Byte) (p p' : BitVec 12),
    exec (.not rd rs rt) s = exec (.not rd rs rt') s ∧
    exec (.jmp rt off) s = exec (.jmp rt' off) s ∧
    exec (.syscall p) s = exec (.syscall p') s

/-! ### LOAD and STORE -/

/-- LOAD: its word, and from the code, data or stack region rd holds the cell unless it is R0, and nothing else changes, the flags
among it (43_load_store.md; the opcode number is decision D1, log 11, the access also for R0 D13, log 20). -/
def Obligations.LoadCompletes : Prop :=
  ∀ (illegalSet : List Nibble) (rd rs : Reg) (off : Nibble) (s : State),
    (0xA ∉ illegalSet → decode illegalSet (0xA#4 ++ rd ++ rs ++ off : Word) = .load rd rs off) ∧
    (region (effectiveAddress rs off s) ≠ .reserved →
      ∃ t, exec (.load rd rs off) s = .next t ∧
        t.reg rd = (if rd = 0 then 0 else s.mem.readCell (effectiveAddress rs off s)) ∧
        SameRegsExcept rd s t ∧ t.flags = s.flags ∧ t.pc = s.pc ∧ SameBytes s t ∧ SameSystem s t)

/-- LOAD from the reserved region faults, for rd = R0 too, and changes nothing but the latch (43_load_store.md; the kind
of fault is decision D6, log 13). -/
def Obligations.LoadFromReservedFaults : Prop :=
  ∀ (rd rs : Reg) (off : Nibble) (s : State), region (effectiveAddress rs off s) = .reserved →
    exec (.load rd rs off) s = .next { s with fault := some (if s.cpl = .kernel then .invalidAccess (effectiveAddress rs off s) s.cpl (s.pc - 1)
       else .protectionFault (effectiveAddress rs off s) s.cpl (s.pc - 1)) }

/-- STORE: its word, and to the data or stack region it writes the one cell at the effective address, and nothing else
changes (43_load_store.md; the opcode number is decision D1, log 11). -/
def Obligations.StoreCompletes : Prop :=
  ∀ (illegalSet : List Nibble) (rd rs : Reg) (off : Nibble) (s : State),
    (0xB ∉ illegalSet → decode illegalSet (0xB#4 ++ rd ++ rs ++ off : Word) = .store rd rs off) ∧
    (region (effectiveAddress rs off s) = .data ∨ region (effectiveAddress rs off s) = .stack →
      ∃ t, exec (.store rd rs off) s = .next t ∧
        t.mem.readCell (effectiveAddress rs off s) = s.reg rd ∧
        SameBytesExcept (effectiveAddress rs off s) s t ∧
        SameRegs s t ∧ t.flags = s.flags ∧ t.pc = s.pc ∧ SameSystem s t)

/-- STORE to the code or reserved region faults and changes nothing but the latch (43_load_store.md; the kind of fault
is decision D6, log 13). -/
def Obligations.StoreToProtectedFaults : Prop :=
  ∀ (rd rs : Reg) (off : Nibble) (s : State),
    region (effectiveAddress rs off s) = .code ∨ region (effectiveAddress rs off s) = .reserved →
    exec (.store rd rs off) s = .next { s with fault := some (if region (effectiveAddress rs off s) = .reserved ∧ s.cpl = .kernel
       then .invalidAccess (effectiveAddress rs off s) s.cpl (s.pc - 1)
       else .protectionFault (effectiveAddress rs off s) s.cpl (s.pc - 1)) }

/-- A LOAD after a STORE to the same effective address returns the stored value, whatever registers name the address
(20_memory.md section 5). -/
def Obligations.StoreThenLoad : Prop :=
  ∀ (rd rs d b : Reg) (off o : Nibble) (s : State),
    region (effectiveAddress rs off s) = .data ∨ region (effectiveAddress rs off s) = .stack →
    effectiveAddress b o s = effectiveAddress rs off s →
    ∃ t u, exec (.store rd rs off) s = .next t ∧ exec (.load d b o) t = .next u ∧
      u.reg d = if d = 0 then 0 else s.reg rd

/-! ### Control transfer -/

/-- JMP: its word for every rd field, and PC plus the signed offset; nothing else changes (44_control.md R211). -/
def Obligations.JumpCompletes : Prop :=
  ∀ (illegalSet : List Nibble) (rd : Reg) (off : Byte) (s : State),
    (0xD ∉ illegalSet → decode illegalSet (0xD#4 ++ rd ++ off : Word) = .jmp rd off) ∧
    exec (.jmp rd off) s = .next { s with pc := BitVec.ofInt 16 (s.pc.toNat + off.toInt) }

/-- BEQ: its word, and PC plus the signed offset when register rd is zero; nothing else changes (44_control.md R212). -/
def Obligations.BranchIfZeroCompletes : Prop :=
  ∀ (illegalSet : List Nibble) (rd : Reg) (off : Byte) (s : State),
    (0xE ∉ illegalSet → decode illegalSet (0xE#4 ++ rd ++ off : Word) = .beq rd off) ∧
    exec (.beq rd off) s =
      .next { s with pc := if s.reg rd = 0 then BitVec.ofInt 16 (s.pc.toNat + off.toInt) else s.pc }

/-- BNE: its word, 0xFFFF excepted, and PC plus the signed offset when register rd is not zero; nothing else changes
(44_control.md R213). -/
def Obligations.BranchIfNotZeroCompletes : Prop :=
  ∀ (illegalSet : List Nibble) (rd : Reg) (off : Byte) (s : State),
    (0xF ∉ illegalSet → decode illegalSet (0xF#4 ++ rd ++ off : Word) =
      if rd = 0xF ∧ off = 0xFF then .halt else .bne rd off) ∧
    exec (.bne rd off) s =
      .next { s with pc := if s.reg rd ≠ 0 then BitVec.ofInt 16 (s.pc.toNat + off.toInt) else s.pc }

/-! ### SYSCALL, HALT, Illegal -/

/-- SYSCALL of a number without a handler: UnknownSyscall with the number and the SYSCALL's address, PC advanced, and
nothing else changed (60_exceptions.md R246). -/
def Obligations.SyscallOfUnknownNumber : Prop :=
  ∀ (s : State) (p : BitVec 12), s.Live → region s.pc = .code → s.nextInstr = .syscall p →
    (∀ e ∈ s.handlers, e.num ≠ s.reg 1) →
    step s = .next { s with pc := s.pc + 1, fault := some (.unknownSyscall (s.reg 1) s.pc) }

/-- SYSCALL refused by the ring filter: PrivilegeViolation with the number, the ring and the SYSCALL's address, PC
advanced, and nothing else changed (60_exceptions.md R247). -/
def Obligations.SyscallRefusedByRing : Prop :=
  ∀ (s : State) (p : BitVec 12) (e : HandlerEntry), s.Live → region s.pc = .code → s.nextInstr = .syscall p →
    findHandler s.handlers (s.reg 1) = some e → e.minRing.level < s.cpl.level →
    step s = .next { s with pc := s.pc + 1, fault := some (.privilegeViolation (s.reg 1) s.cpl s.pc) }

/-- SYSCALL whose handler returns: R1 holds the return value, and of everything else only what the handler writes
changes. It cannot touch `cycles`, `halted`, the latch or the parameters (45_system.md section 1; how the relation of
a handler stands in the state, and the count of its calls, are the model's choice, log 7). -/
def Obligations.SyscallCompletes : Prop :=
  ∀ (s : State) (p : BitVec 12) (e : HandlerEntry) (r : HandlerReply), s.Calls e r →
    ∃ t, exec (.syscall p) s = .next t ∧ t.reg 1 = r.ret ∧
      (∀ i, i ≠ 1 → (∀ v, .reg i v ∉ r.writes) → t.reg i = s.reg i) ∧
      ((∀ v, .pc v ∉ r.writes) → t.pc = s.pc) ∧ ((∀ v, .sp v ∉ r.writes) → t.sp = s.sp) ∧
      ((∀ v, .lr v ∉ r.writes) → t.lr = s.lr) ∧ ((∀ f, .flags f ∉ r.writes) → t.flags = s.flags) ∧
      ((∀ q, .ring q ∉ r.writes) → t.cpl = s.cpl) ∧
      (∀ k, (∀ a v, .cell a v ∈ r.writes → k ≠ loByte a ∧ k ≠ hiByte a) → t.mem.readByte k = s.mem.readByte k) ∧
      t.cycles = s.cycles ∧ t.halted = s.halted ∧ t.fault = s.fault ∧ t.handlers = s.handlers ∧
      t.illegalSet = s.illegalSet ∧ t.hostCalls = s.hostCalls + 1

/-- What a handler writes last to a thing is what SYSCALL leaves there, but for R1, which holds the return value, and
R0, which stays 0 (45_system.md section 1; log 7). -/
def Obligations.HandlerWritesTakeEffect : Prop :=
  ∀ (s t : State) (p : BitVec 12) (e : HandlerEntry) (r : HandlerReply), s.Calls e r →
    exec (.syscall p) s = .next t → ∀ before after : List (HandlerWrite Word),
    (∀ i v, r.writes = before ++ .reg i v :: after → (∀ u, .reg i u ∉ after) → i ≠ 1 →
      t.reg i = if i = 0 then 0 else v) ∧
    (∀ v, r.writes = before ++ .pc v :: after → (∀ u, .pc u ∉ after) → t.pc = v) ∧
    (∀ v, r.writes = before ++ .sp v :: after → (∀ u, .sp u ∉ after) → t.sp = v) ∧
    (∀ v, r.writes = before ++ .lr v :: after → (∀ u, .lr u ∉ after) → t.lr = v) ∧
    (∀ f, r.writes = before ++ .flags f :: after → (∀ u, .flags u ∉ after) → t.flags = f) ∧
    (∀ q, r.writes = before ++ .ring q :: after → (∀ u, .ring u ∉ after) → t.cpl = q) ∧
    (∀ a v, r.writes = before ++ .cell a v :: after → (∀ u, .cell a u ∉ after) → t.mem.readCell a = v)

/-- A SYSCALL the gateway lets through leaves the machine stuck exactly where the relation of its handler has no outcome,
and otherwise has a next state (45_system.md section 1; the form of the stop is the model's choice, log 8). -/
def Obligations.SyscallThatNeverReturnsIsStuck : Prop :=
  ∀ (s : State) (p : BitVec 12) (e : HandlerEntry), findHandler s.handlers (s.reg 1) = some e →
    s.cpl.level ≤ e.minRing.level →
    (exec (.syscall p) s = .fault (.handlerNeverReturns (s.reg 1)) ↔ e.body.outcome s = none) ∧
    ((∃ t, exec (.syscall p) s = .next t) ↔ e.body.outcome s ≠ none)

/-- HALT sets the halted flag and nothing else; its step advances PC and counts a cycle, at any ring (45_system.md
section 2; the count is decision D16, log 22). -/
def Obligations.HaltCompletes : Prop :=
  ∀ s : State, exec .halt s = .next { s with halted := true } ∧
    (s.Live → region s.pc = .code → s.mem.readCell s.pc = 0xFFFF →
      step s = .next { s with pc := s.pc + 1, halted := true, cycles := s.cycles + 1 })

/-- Illegal raises IllegalInstruction with the address the word was fetched from, and nothing but PC has changed
(60_exceptions.md R243). -/
def Obligations.IllegalCompletes : Prop :=
  ∀ (s : State) (w : Word),
    exec (.illegal w) s = .next { s with fault := some (.illegalInstruction (s.pc - 1)) } ∧
    (s.Live → region s.pc = .code → s.nextInstr = .illegal w →
      step s = .next { s with pc := s.pc + 1, fault := some (.illegalInstruction s.pc) })

/-! ### The whole machine -/

/-- Every step keeps the invariant: canonical memory, a partial dispatch table, never both halted and faulted, and a
latched fault that describes the state (10_state.md section 9, 60_exceptions.md sections 1 and 3; logs 1, 6, 13). -/
def Obligations.StepKeepsInvariant : Prop := ∀ s t : State, s.Inv → step s = .next t → t.Inv

/-- Reset meets the invariant (10_state.md sections 8 and 9): its memory is canonical, its table a partial map because
the default table is empty (log 6), and what the invariant asks of a halted machine and of a latched fault holds. -/
def Obligations.ResetMeetsInvariant : Prop := State.reset.Inv

/-- A step that faults has changed nothing but PC, and PC only when the fault came after the fetch
(40_execution_cycle.md R150). The latch itself is R39's. -/
def Obligations.FaultingStepChangesOnlyPc : Prop :=
  ∀ (s t : State) (f : FatalFault), s.Live → step s = .next t → t.fault = some f →
    t = { s with pc := t.pc, fault := some f } ∧
    ((region s.pc ≠ .code ∧ t.pc = s.pc) ∨ (region s.pc = .code ∧ t.pc = s.pc + 1))

/-- A fault carries the address of the instruction whose step raised it, which is PC minus 1 for every fault raised
after the fetch and PC itself for a fetch fault (60_exceptions.md sections 1 and 3; the fetch fault is decision D7,
log 14). -/
def Obligations.FaultCarriesInstructionAddress : Prop :=
  ∀ (s t : State) (f : FatalFault), s.Live → step s = .next t → t.fault = some f →
    f.pc = s.pc ∧ (region s.pc = .code → f.pc = t.pc - 1) ∧ (region s.pc ≠ .code → f.pc = t.pc)

/-- PC after a completed step: one past the instruction, or the target of JMP or of a taken branch; a SYSCALL goes on at
the next instruction unless its handler writes PC (40_execution_cycle.md R152). -/
def Obligations.PcAfterCompletedStep : Prop :=
  ∀ s t : State, s.Live → step s = .next t → t.fault = none →
    match s.nextInstr with
    | .jmp _ off => t.pc = s.pc + 1 + off.signExtend 16
    | .beq rd off => t.pc = if s.reg rd = 0 then s.pc + 1 + off.signExtend 16 else s.pc + 1
    | .bne rd off => t.pc = if s.reg rd = 0 then s.pc + 1 else s.pc + 1 + off.signExtend 16
    | .syscall _ => ∀ e r, s.advancePc.Calls e r → (∀ v, .pc v ∉ r.writes) → t.pc = s.pc + 1
    | _ => t.pc = s.pc + 1

/-- CPL changes only inside a handler, called by a SYSCALL the ring filter let through, that sets the ring
(10_state.md section 5, 60_exceptions.md section 5). -/
def Obligations.CplChangesOnlyInHandlers : Prop :=
  ∀ s t : State, step s = .next t → t.cpl ≠ s.cpl →
    s.Live ∧ ∃ p e r q, s.nextInstr = .syscall p ∧ s.advancePc.Calls e r ∧ .ring q ∈ r.writes

/-- SP and LR change only inside a handler that writes them (10_state.md section 3; decision D19, log 24). -/
def Obligations.SpAndLrChangeOnlyInHandlers : Prop :=
  ∀ s t : State, step s = .next t →
    (t.sp ≠ s.sp → ∃ p e r v, s.nextInstr = .syscall p ∧ s.advancePc.Calls e r ∧ .sp v ∈ r.writes) ∧
    (t.lr ≠ s.lr → ∃ p e r v, s.nextInstr = .syscall p ∧ s.advancePc.Calls e r ∧ .lr v ∈ r.writes)

/-- A cell of the code or reserved region changes only inside a handler that writes it, and if that handler keeps its
duties its declared minimum ring is 0 (10_state.md section 9, items 4 and 5; 20_memory.md section 6). -/
def Obligations.ProtectedCellsChangeOnlyInHandlers : Prop :=
  ∀ (s t : State) (a : Word), step s = .next t → region a = .code ∨ region a = .reserved →
    t.mem.readCell a ≠ s.mem.readCell a →
    s.Live ∧ ∃ p e r v, s.nextInstr = .syscall p ∧ s.advancePc.Calls e r ∧ .cell a v ∈ r.writes ∧
      (r.KeepsDuties e.minRing → e.minRing = .kernel)

/-- With handlers that keep their duties every step keeps SP even (45_system.md section 1, duty 4; the premise is on the
host, log 9). -/
def Obligations.DutifulHandlersKeepSpEven : Prop :=
  ∀ s t : State, (∀ e r, s.advancePc.Calls e r → r.KeepsDuties e.minRing) → s.sp.getLsbD 0 = false →
    step s = .next t → t.sp.getLsbD 0 = false

/-- The flags are written by the ten ALU instructions and by no other; SYSCALL leaves them unless its handler writes
them (10_state.md section 4, 40_execution_cycle.md section 1). -/
def Obligations.FlagsWrittenOnlyByAlu : Prop :=
  ∀ (i : Instr) (s t : State), exec i s = .next t → writesFlags i = false →
    (∀ p e r, i = .syscall p → s.Calls e r → ∀ f, .flags f ∉ r.writes) → t.flags = s.flags

/-- No instruction reads a flag: two states that differ in SR alone give outcomes that differ in SR alone. A handler may
read the flags, so of a SYSCALL this is said when its handler does the same in both states (10_state.md section 4,
45_system.md section 1). -/
def Obligations.FlagsNeverRead : Prop :=
  ∀ (i : Instr) (s : State) (f : Flags),
    (∀ p e, i = .syscall p → findHandler s.handlers (s.reg 1) = some e →
      e.body.outcome (s.setFlags f) = e.body.outcome s) →
    mapNext (fun t => t.setFlags f) (exec i (s.setFlags f)) = mapNext (fun t => t.setFlags f) (exec i s)

/-- No instruction but LOAD, STORE and SYSCALL depends on CPL: in another ring it does the same (10_state.md section 5,
40_execution_cycle.md section 1). -/
def Obligations.CplReadOnlyByChecksAndGateway : Prop :=
  ∀ (i : Instr) (s : State) (q : Ring), readsCpl i = false →
    exec i (s.setRing q) = mapNext (fun t => t.setRing q) (exec i s)

/-- A step of a live machine counts one cycle if it completes and none if it faults (40_execution_cycle.md section 1;
decision D16, log 22). -/
def Obligations.CompletedStepsCount : Prop :=
  ∀ s t : State, s.Live → step s = .next t →
    t.cycles = if t.fault = none then s.cycles + 1 else s.cycles

/-- A step always has a next state, but for a SYSCALL the gateway lets through whose handler has no outcome
(40_execution_cycle.md section 1, 45_system.md section 1; log 8). -/
def Obligations.StepHasNextStateUnlessHandlerHangs : Prop :=
  ∀ s : State, (∃ t, step s = .next t) ∨
    (s.Live ∧ (∃ p e, s.nextInstr = .syscall p ∧ findHandler s.handlers (s.reg 1) = some e ∧
      s.cpl.level ≤ e.minRing.level ∧ e.body.outcome s.advancePc = none) ∧
      step s = .fault (.handlerNeverReturns (s.reg 1)))

/-- Only HALT halts, and no step changes the parameters `HANDLERS` and `ILLEGAL_SET` (45_system.md sections 1 and 2;
the parameters in the state are the model's choice, logs 6 and 10). -/
def Obligations.OnlyHaltHaltsAndParametersStay : Prop :=
  ∀ s t : State, step s = .next t →
    (t.halted ≠ s.halted → s.nextInstr = .halt ∧ t.halted = true) ∧
    t.handlers = s.handlers ∧ t.illegalSet = s.illegalSet

/-! ### The host -/

/-- A run that used up its bound, continued, is one longer run; a run that ended otherwise is not changed by a larger
bound (70_reset_and_hazards.md section 3; the loop of `run` is decision D17, log 23). -/
def Obligations.RunsCompose : Prop :=
  ∀ (n m : Nat) (s : State),
    (∀ pc c, (run n s).status = .cycleBudgetExhausted pc c →
      run (n + m) s = RunEnd.after (run n s).consumed (run m (run n s).state)) ∧
    ((∀ pc c, (run n s).status ≠ .cycleBudgetExhausted pc c) → run (n + m) s = run n s)

/-- `trace` ends exactly as `run`, whatever the observer records, with one record for each completed step
(70_reset_and_hazards.md section 3; log 31). -/
def Obligations.TraceEndsAsRun : Prop :=
  ∀ (ρ : Type) (record : State → State → ρ) (n : Nat) (s : State),
    (trace record n s).1 = run n s ∧ (trace record n s).2.length = (run n s).consumed

/-- `load_program` succeeds exactly when its cells are in the code region; it writes those cells and nothing else
(70_reset_and_hazards.md section 3; the bound is decision D21, log 25). -/
def Obligations.LoadProgramPlacesWords : Prop :=
  ∀ (words : List Word) (base : Word) (s : State),
    ((s.loadProgram words base).isSome = true ↔ base.toNat + words.length ≤ 0x0100) ∧
    ∀ t, s.loadProgram words base = some t →
      (∀ (k : Nat) (h : k < words.length), t.mem.readCell (base + BitVec.ofNat 16 k) = words[k]) ∧
      (∀ a : Word, a.toNat < base.toNat ∨ base.toNat + words.length ≤ a.toNat →
        t.mem.readCell a = s.mem.readCell a) ∧
      SameRegs s t ∧ t.pc = s.pc ∧ t.flags = s.flags ∧ SameSystem s t

/-- `load_image` takes an even number of bytes whose cells exist and are not reserved, and places them little-endian
(70_reset_and_hazards.md section 3; decisions D5 and D21, log 25). -/
def Obligations.LoadImageIsLittleEndian : Prop :=
  ∀ (bytes : List Byte) (addr : Word) (s : State),
    ((s.loadImage bytes addr).isSome = true ↔
      (bytes.length % 2 = 0 ∧ (bytes.length = 0 ∨ addr.toNat + bytes.length / 2 ≤ 0xFFFE))) ∧
    ∀ t, s.loadImage bytes addr = some t →
      (∀ (k : Nat) (h : 2 * k + 1 < bytes.length),
        (t.mem.readCell (addr + BitVec.ofNat 16 k)).toNat = bytes[2 * k].toNat + 256 * bytes[2 * k + 1].toNat) ∧
      (∀ a : Word, a.toNat < addr.toNat ∨ addr.toNat + bytes.length / 2 ≤ a.toNat →
        t.mem.readCell a = s.mem.readCell a) ∧
      SameRegs s t ∧ t.pc = s.pc ∧ t.flags = s.flags ∧ SameSystem s t

/-- Restoring a snapshot into any machine gives the registers and the cells of the slice as they were, keeps the other
cells and the parameters of the machine restored into, and clears the latch (70_reset_and_hazards.md section 3;
decision D32, log 29). -/
def Obligations.RestoreGivesSnapshotBack : Prop :=
  ∀ (s u : State) (first : Word) (len : Nat) (p : Snapshot), s.snapshot first len = some p →
    SameRegs s (u.restore p) ∧ (u.restore p).pc = s.pc ∧ (u.restore p).sp = s.sp ∧ (u.restore p).lr = s.lr ∧
    (u.restore p).flags = s.flags ∧ (u.restore p).cpl = s.cpl ∧ (u.restore p).cycles = s.cycles ∧
    (u.restore p).halted = s.halted ∧ (u.restore p).fault = none ∧
    (∀ a : Word, (u.restore p).mem.readCell a =
      if first.toNat ≤ a.toNat ∧ a.toNat < first.toNat + len then s.mem.readCell a else u.mem.readCell a) ∧
    (u.restore p).handlers = u.handlers ∧ (u.restore p).illegalSet = u.illegalSet

/-! ### Reset -/

/-- What the source says of instantiation: memory zeroed, registers zeroed, PC=0, SP=0xFFFE, CPL=2 (10_state.md section
8). -/
def Obligations.ResetIsInstantiation : Prop :=
  (∀ a : Word, State.reset.mem.readCell a = 0) ∧ (∀ i : Reg, State.reset.reg i = 0) ∧ State.reset.lr = 0 ∧
  State.reset.pc = 0 ∧ State.reset.sp = 0xFFFE ∧ State.reset.cpl = .user

/-- The reset values the source does not state, as the spec decides them (D31, log 28), and the defaults of the
parameters (logs 6, 7, 10). -/
def Obligations.ResetValuesByDecision : Prop :=
  State.reset.flags = ⟨false, false, false, false⟩ ∧ State.reset.cycles = 0 ∧ State.reset.halted = false ∧
  State.reset.fault = none ∧ State.reset.handlers = [] ∧ State.reset.illegalSet = [] ∧ State.reset.hostCalls = 0
end

