-- ==== Sys2Proof/Laws/PerInstr.lean ====
section
/-! SUPPORT. Facts about each instruction as syntax, one lemma for each constructor of `Instr`. -/

namespace Sys2Proof.Laws.OpcodeNibble

/-- The opcode field of a record is the high nibble of its word, or the whole word for the sentinel (30_encoding.md
R107, R120). -/
def Statement (i : Instr) : Prop :=
  match i.opcode with
  | .nibble op => opField (encode i) = op
  | .sentinel word => encode i = word

theorem opField_layoutR (op : Nibble) (rd rs rt : Reg) : opField (layoutR op rd rs rt) = op := by
  apply BitVec.eq_of_getLsbD_eq
  intro k hk
  simp only [opField, layoutR, BitVec.getLsbD_extractLsb', BitVec.getLsbD_append]
  have h1 : ¬ 12 + k < 4 := by omega
  have h2 : ¬ 12 + k - 4 < 4 := by omega
  have h3 : ¬ 12 + k - 4 - 4 < 4 := by omega
  have h4 : 12 + k - 4 - 4 - 4 = k := by omega
  simp [h1, h2, h3, h4, hk]

theorem opField_layoutI (op : Nibble) (rd : Reg) (imm : Byte) : opField (layoutI op rd imm) = op := by
  apply BitVec.eq_of_getLsbD_eq
  intro k hk
  simp only [opField, layoutI, BitVec.getLsbD_extractLsb', BitVec.getLsbD_append]
  have h1 : ¬ 12 + k < 8 := by omega
  have h2 : ¬ 12 + k - 8 < 4 := by omega
  have h3 : 12 + k - 8 - 4 = k := by omega
  simp [h1, h2, h3, hk]

theorem opField_layoutS (op : Nibble) (payload : BitVec 12) : opField (layoutS op payload) = op := by
  apply BitVec.eq_of_getLsbD_eq
  intro k hk
  simp only [opField, layoutS, BitVec.getLsbD_extractLsb', BitVec.getLsbD_append]
  have h1 : ¬ 12 + k < 12 := by omega
  have h2 : 12 + k - 12 = k := by omega
  simp [h2, hk]

theorem halt : Statement .halt := rfl
theorem syscall (payload : BitVec 12) : Statement (.syscall payload) := opField_layoutS _ _
theorem add (rd rs rt : Reg) : Statement (.add rd rs rt) := opField_layoutR _ _ _ _
theorem addi (rd : Reg) (imm : Byte) : Statement (.addi rd imm) := opField_layoutI _ _ _
theorem sub (rd rs rt : Reg) : Statement (.sub rd rs rt) := opField_layoutR _ _ _ _
theorem and (rd rs rt : Reg) : Statement (.and rd rs rt) := opField_layoutR _ _ _ _
theorem or (rd rs rt : Reg) : Statement (.or rd rs rt) := opField_layoutR _ _ _ _
theorem xor (rd rs rt : Reg) : Statement (.xor rd rs rt) := opField_layoutR _ _ _ _
theorem not (rd rs rt : Reg) : Statement (.not rd rs rt) := opField_layoutR _ _ _ _
theorem shl (rd rs rt : Reg) : Statement (.shl rd rs rt) := opField_layoutR _ _ _ _
theorem shr (rd rs rt : Reg) : Statement (.shr rd rs rt) := opField_layoutR _ _ _ _
theorem load (rd rs : Reg) (off : Nibble) : Statement (.load rd rs off) := opField_layoutR _ _ _ _
theorem store (rd rs : Reg) (off : Nibble) : Statement (.store rd rs off) := opField_layoutR _ _ _ _
theorem loadi (rd : Reg) (imm : Byte) : Statement (.loadi rd imm) := opField_layoutI _ _ _
theorem jmp (rd : Reg) (off : Byte) : Statement (.jmp rd off) := opField_layoutI _ _ _
theorem beq (rd : Reg) (off : Byte) : Statement (.beq rd off) := opField_layoutI _ _ _
theorem bne (rd : Reg) (off : Byte) : Statement (.bne rd off) := opField_layoutI _ _ _
theorem illegal (word : Word) : Statement (.illegal word) := rfl

end Sys2Proof.Laws.OpcodeNibble
end

