-- ==== Sys2Proof/Laws/Decode.lean ====
section
/-! SUPPORT. Fields and layouts undo each other, and the sixteen opcodes are all the nibbles: what the proofs about
`decode` and `encode` rest on (30_encoding.md R107, R112). -/

namespace Sys2Proof

open Sys2Proof.Laws.OpcodeNibble

/-- A field of a layout is the field it was laid out from (30_encoding.md R107). -/
theorem rdField_layoutR (op : Nibble) (rd rs rt : Reg) : rdField (layoutR op rd rs rt) = rd := by
  apply BitVec.eq_of_getLsbD_eq
  intro k hk
  simp only [rdField, layoutR, BitVec.getLsbD_extractLsb', BitVec.getLsbD_append]
  have h1 : ¬ 8 + k < 4 := by omega
  have h2 : ¬ 8 + k - 4 < 4 := by omega
  have h4 : 8 + k - 4 - 4 = k := by omega
  simp [h1, h2, h4, hk]

/-- A field of a layout is the field it was laid out from (30_encoding.md R107). -/
theorem rsField_layoutR (op : Nibble) (rd rs rt : Reg) : rsField (layoutR op rd rs rt) = rs := by
  apply BitVec.eq_of_getLsbD_eq
  intro k hk
  simp only [rsField, layoutR, BitVec.getLsbD_extractLsb', BitVec.getLsbD_append]
  have h1 : ¬ 4 + k < 4 := by omega
  have h4 : 4 + k - 4 = k := by omega
  simp [h4, hk]

/-- A field of a layout is the field it was laid out from (30_encoding.md R107). -/
theorem rtField_layoutR (op : Nibble) (rd rs rt : Reg) : rtField (layoutR op rd rs rt) = rt := by
  apply BitVec.eq_of_getLsbD_eq
  intro k hk
  simp only [rtField, layoutR, BitVec.getLsbD_extractLsb', BitVec.getLsbD_append]
  simp [hk]

/-- A field of a layout is the field it was laid out from (30_encoding.md R107). -/
theorem off4Field_layoutR (op : Nibble) (rd rs rt : Reg) : off4Field (layoutR op rd rs rt) = rt := rtField_layoutR op rd rs rt

/-- A field of a layout is the field it was laid out from (30_encoding.md R107). -/
theorem rdField_layoutI (op : Nibble) (rd : Reg) (imm : Byte) : rdField (layoutI op rd imm) = rd := by
  apply BitVec.eq_of_getLsbD_eq
  intro k hk
  simp only [rdField, layoutI, BitVec.getLsbD_extractLsb', BitVec.getLsbD_append]
  have h1 : ¬ 8 + k < 8 := by omega
  have h4 : 8 + k - 8 = k := by omega
  simp [h4, hk]

/-- A field of a layout is the field it was laid out from (30_encoding.md R107). -/
theorem low8Field_layoutI (op : Nibble) (rd : Reg) (imm : Byte) : low8Field (layoutI op rd imm) = imm := by
  apply BitVec.eq_of_getLsbD_eq
  intro k hk
  simp only [low8Field, layoutI, BitVec.getLsbD_extractLsb', BitVec.getLsbD_append]
  simp [hk]

/-- A field of a layout is the field it was laid out from (30_encoding.md R107). -/
theorem payloadField_layoutS (op : Nibble) (p : BitVec 12) : payloadField (layoutS op p) = p := by
  apply BitVec.eq_of_getLsbD_eq
  intro k hk
  simp only [payloadField, layoutS, BitVec.getLsbD_extractLsb', BitVec.getLsbD_append]
  simp [hk]

/-- A word is the layout of its own fields (30_encoding.md R107). -/
theorem layoutR_fields (w : Word) : layoutR (opField w) (rdField w) (rsField w) (rtField w) = w := by
  apply BitVec.eq_of_getLsbD_eq
  intro k hk
  simp only [layoutR, opField, rdField, rsField, rtField, BitVec.getLsbD_extractLsb', BitVec.getLsbD_append]
  by_cases h1 : k < 4
  · simp [h1]
  by_cases h2 : k - 4 < 4
  · have : 4 + (k - 4) = k := by omega
    simp [h1, h2, this]
  by_cases h3 : k - 4 - 4 < 4
  · have : 8 + (k - 4 - 4) = k := by omega
    simp [h1, h2, h3, this]
  · have : 12 + (k - 4 - 4 - 4) = k := by omega
    have h5 : k - 4 - 4 - 4 < 4 := by omega
    simp [h1, h2, h3, this, h5]

/-- A word is the layout of its own fields (30_encoding.md R107). -/
theorem layoutI_fields (w : Word) : layoutI (opField w) (rdField w) (low8Field w) = w := by
  apply BitVec.eq_of_getLsbD_eq
  intro k hk
  simp only [layoutI, opField, rdField, low8Field, BitVec.getLsbD_extractLsb', BitVec.getLsbD_append]
  by_cases h1 : k < 8
  · simp [h1]
  by_cases h2 : k - 8 < 4
  · have : 8 + (k - 8) = k := by omega
    simp [h1, h2, this]
  · have : 12 + (k - 8 - 4) = k := by omega
    have h5 : k - 8 - 4 < 4 := by omega
    simp [h1, h2, this, h5]

/-- A word is the layout of its own fields (30_encoding.md R107). -/
theorem layoutS_fields (w : Word) : layoutS (opField w) (payloadField w) = w := by
  apply BitVec.eq_of_getLsbD_eq
  intro k hk
  simp only [layoutS, opField, payloadField, BitVec.getLsbD_extractLsb', BitVec.getLsbD_append]
  by_cases h1 : k < 12
  · simp [h1]
  · have : 12 + (k - 12) = k := by omega
    have h5 : k - 12 < 4 := by omega
    simp [h1, this, h5]

/-- The opcode map assigns every nibble (30_encoding.md R112). -/
theorem op_cases (op : Nibble) :
    op = Opcode.syscall ∨ op = Opcode.add ∨ op = Opcode.addi ∨ op = Opcode.sub ∨
    op = Opcode.and ∨ op = Opcode.or ∨ op = Opcode.xor ∨ op = Opcode.not ∨
    op = Opcode.shl ∨ op = Opcode.shr ∨ op = Opcode.load ∨ op = Opcode.store ∨
    op = Opcode.loadi ∨ op = Opcode.jmp ∨ op = Opcode.beq ∨ op = Opcode.bne := by
  revert op
  decide

/-- Only the HALT word has all four nibbles 0xF. -/
theorem eq_haltWord_of_fields {w : Word} (h1 : opField w = Opcode.bne) (h2 : rdField w = 0xF) (h3 : low8Field w = 0xFF) :
    w = haltWord := by
  rw [← layoutI_fields w, h1, h2, h3]
  decide

/-- The opcode field of a record fits its word: `OpcodeNibble` for every constructor. -/
theorem opcodeNibble (i : Instr) : Statement i := by
  cases i
  · exact Laws.OpcodeNibble.halt
  · exact Laws.OpcodeNibble.syscall _
  · exact Laws.OpcodeNibble.add _ _ _
  · exact Laws.OpcodeNibble.addi _ _
  · exact Laws.OpcodeNibble.sub _ _ _
  · exact Laws.OpcodeNibble.and _ _ _
  · exact Laws.OpcodeNibble.or _ _ _
  · exact Laws.OpcodeNibble.xor _ _ _
  · exact Laws.OpcodeNibble.not _ _ _
  · exact Laws.OpcodeNibble.shl _ _ _
  · exact Laws.OpcodeNibble.shr _ _ _
  · exact Laws.OpcodeNibble.load _ _ _
  · exact Laws.OpcodeNibble.store _ _ _
  · exact Laws.OpcodeNibble.loadi _ _
  · exact Laws.OpcodeNibble.jmp _ _
  · exact Laws.OpcodeNibble.beq _ _
  · exact Laws.OpcodeNibble.bne _ _
  · exact Laws.OpcodeNibble.illegal _

/-- A record whose opcode field is a nibble has it as the high nibble of its word. -/
theorem opField_encode {i : Instr} {op : Nibble} (h : i.opcode = .nibble op) : opField (encode i) = op := by
  have hs := opcodeNibble i
  rw [Statement, h] at hs
  exact hs

end Sys2Proof
end

