-- ==== Sys2Proof/Laws/Memory.lean ====
section
/-! SUPPORT. Reading after writing, and the canonical form, for every memory operation. -/

namespace Sys2Proof.Machine

/-! ### Bytes -/

theorem Memory.readByte_erase (m : Memory) (k j : Nat) :
    (m.erase k).readByte j = if j = k then Memory.unlisted else m.readByte j := by
  induction m with
  | nil => simp [Memory.erase, Memory.readByte]
  | cons c rest ih =>
    obtain ⟨a, b⟩ := c
    by_cases ha : a = k
    · simp only [Memory.erase, Memory.readByte, ha, if_true, ih]
      by_cases hj : j = k
      · simp [hj]
      · simp [hj, Ne.symm hj]
    · simp only [Memory.erase, Memory.readByte, ha, if_false, ih]
      by_cases hj : j = k
      · simp [hj, ha]
      · simp [hj]

theorem Memory.readByte_insert (m : Memory) (k j : Nat) (v : Byte) (h : m.readByte k = Memory.unlisted)
    (hk : ∀ c ∈ m, c.1 ≠ k) : (m.insert k v).readByte j = if j = k then v else m.readByte j := by
  induction m with
  | nil => simp [Memory.insert, Memory.readByte, eq_comm]
  | cons c rest ih =>
    obtain ⟨a, b⟩ := c
    have ha : a ≠ k := hk (a, b) (by simp)
    have hrest : ∀ c ∈ rest, c.1 ≠ k := fun c hc => hk c (by simp [hc])
    have hr : Memory.readByte rest k = Memory.unlisted := by simpa [Memory.readByte, ha] using h
    by_cases hka : k < a
    · simp [Memory.insert, hka, Memory.readByte, eq_comm]
    · simp only [Memory.insert, hka, if_false, Memory.readByte, ih hr hrest]
      by_cases hj : a = j
      · subst hj; simp [ha]
      · simp [hj]

theorem Memory.not_mem_erase (m : Memory) (k : Nat) : ∀ c ∈ m.erase k, c.1 ≠ k := by
  induction m with
  | nil => simp [Memory.erase]
  | cons c rest ih =>
    obtain ⟨a, b⟩ := c
    by_cases ha : a = k
    · simpa [Memory.erase, ha] using ih
    · simpa [Memory.erase, ha] using ih

/-- What any byte reads as after any byte is written. -/
theorem Memory.readByte_writeByte (m : Memory) (k j : Nat) (v : Byte) :
    (m.writeByte k v).readByte j = if j = k then v else m.readByte j := by
  unfold Memory.writeByte
  by_cases hv : v = Memory.unlisted
  · simp [hv, Memory.readByte_erase]
  · rw [if_neg hv, Memory.readByte_insert _ _ _ _ (by simp [Memory.readByte_erase]) (Memory.not_mem_erase m k),
      Memory.readByte_erase]
    by_cases hj : j = k <;> simp [hj]

/-! ### Cells -/

theorem loByte_ne_hiByte (a b : Word) : loByte a ≠ hiByte b := by unfold loByte hiByte; omega

theorem hiByte_ne_loByte (a b : Word) : hiByte a ≠ loByte b := by unfold loByte hiByte; omega

@[simp] theorem loByte_inj {a b : Word} : loByte a = loByte b ↔ a = b := by
  unfold loByte
  exact ⟨fun h => BitVec.eq_of_toNat_eq (by omega), fun h => by rw [h]⟩

@[simp] theorem hiByte_inj {a b : Word} : hiByte a = hiByte b ↔ a = b := by
  unfold hiByte
  exact ⟨fun h => BitVec.eq_of_toNat_eq (by omega), fun h => by rw [h]⟩

/-- What any byte reads as after a cell is written. -/
theorem Memory.readByte_writeCell (m : Memory) (a v : Word) (k : Nat) :
    (m.writeCell a v).readByte k =
      if k = hiByte a then v.extractLsb' 8 8 else if k = loByte a then v.extractLsb' 0 8 else m.readByte k := by
  simp [Memory.writeCell, Memory.readByte_writeByte]

theorem bytes_of_word (v : Word) : v.extractLsb' 8 8 ++ v.extractLsb' 0 8 = v := by
  apply BitVec.eq_of_getLsbD_eq
  intro i hi
  simp only [BitVec.getLsbD_append, BitVec.getLsbD_extractLsb']
  by_cases h : i < 8
  · simp [h]
  · simp only [h, if_false]
    have : 8 + (i - 8) = i := by omega
    simp [this]; omega

/-- What any cell reads as after a cell is written (20_memory.md R76). -/
theorem Memory.readCell_writeCell (m : Memory) (a b v : Word) :
    (m.writeCell a v).readCell b = if b = a then v else m.readCell b := by
  unfold Memory.readCell
  rw [Memory.readByte_writeCell, Memory.readByte_writeCell]
  by_cases h : b = a
  · subst h
    simp [loByte_ne_hiByte, bytes_of_word]
  · simp [h, loByte_ne_hiByte, hiByte_ne_loByte]

@[simp] theorem Memory.readCell_writeCell_self (m : Memory) (a v : Word) : (m.writeCell a v).readCell a = v := by
  simp [Memory.readCell_writeCell]

theorem Memory.readCell_writeCell_of_ne (m : Memory) {a b : Word} (h : b ≠ a) (v : Word) :
    (m.writeCell a v).readCell b = m.readCell b := by
  simp [Memory.readCell_writeCell, h]

/-! ### The canonical form -/

theorem Memory.mem_erase {m : Memory} {k : Nat} {c : Host.Cell} (h : c ∈ m.erase k) : c ∈ m := by
  induction m with
  | nil => simp [Memory.erase] at h
  | cons d rest ih =>
    obtain ⟨a, b⟩ := d
    unfold Memory.erase at h
    split at h
    · exact List.mem_cons_of_mem _ (ih h)
    · rcases List.mem_cons.mp h with h | h
      · simp [h]
      · exact List.mem_cons_of_mem _ (ih h)

theorem Memory.mem_insert {m : Memory} {k : Nat} {v : Byte} {c : Host.Cell} (h : c ∈ m.insert k v) :
    c = (k, v) ∨ c ∈ m := by
  induction m with
  | nil => simpa [Memory.insert] using h
  | cons d rest ih =>
    obtain ⟨a, b⟩ := d
    unfold Memory.insert at h
    split at h
    · simpa using h
    · rcases List.mem_cons.mp h with h | h
      · simp [h]
      · rcases ih h with h | h
        · exact .inl h
        · exact .inr (List.mem_cons_of_mem _ h)

theorem Memory.erase_wf {m : Memory} (h : m.wf) (k : Nat) : (m.erase k).wf := by
  refine ⟨?_, fun c hc => h.2 c (Memory.mem_erase hc)⟩
  obtain ⟨h, -⟩ := h
  induction m with
  | nil => simp [Memory.erase]
  | cons d rest ih =>
    obtain ⟨a, b⟩ := d
    obtain ⟨h1, h2⟩ := List.pairwise_cons.mp h
    unfold Memory.erase
    split
    · exact ih h2
    · exact List.pairwise_cons.mpr ⟨fun c hc => h1 c (Memory.mem_erase hc), ih h2⟩

theorem Memory.insert_pairwise {m : Memory} (h : m.Pairwise (fun x y => x.1 < y.1)) (k : Nat) (v : Byte)
    (hk : ∀ c ∈ m, c.1 ≠ k) : (m.insert k v).Pairwise (fun x y => x.1 < y.1) := by
  induction m with
  | nil => simp [Memory.insert]
  | cons d rest ih =>
    obtain ⟨a, b⟩ := d
    obtain ⟨h1, h2⟩ := List.pairwise_cons.mp h
    have ha : a ≠ k := hk (a, b) (by simp)
    unfold Memory.insert
    split
    · rename_i hlt
      refine List.pairwise_cons.mpr ⟨fun c hc => ?_, h⟩
      rcases List.mem_cons.mp hc with rfl | hc
      · exact hlt
      · exact Nat.lt_trans hlt (h1 c hc)
    · refine List.pairwise_cons.mpr ⟨fun c hc => ?_, ih h2 (fun c hc => hk c (by simp [hc]))⟩
      rcases Memory.mem_insert hc with rfl | hc
      · show a < k
        omega
      · exact h1 c hc

/-- Writing a byte inside the address space keeps the canonical form. -/
theorem Memory.writeByte_wf {m : Memory} (h : m.wf) {k : Nat} (hk : k < 2 * Config.cellCount) (v : Byte) :
    (m.writeByte k v).wf := by
  have he := Memory.erase_wf h k
  unfold Memory.writeByte
  split
  · exact he
  · rename_i hv
    refine ⟨Memory.insert_pairwise he.1 k v (Memory.not_mem_erase m k), fun c hc => ?_⟩
    rcases Memory.mem_insert hc with rfl | hc
    · exact ⟨hk, hv⟩
    · exact he.2 c hc

theorem loByte_lt (a : Word) : loByte a < 2 * Config.cellCount := by
  have := a.isLt
  simp only [loByte, Config.cellCount]; omega

theorem hiByte_lt (a : Word) : hiByte a < 2 * Config.cellCount := by
  have := a.isLt
  simp only [hiByte, Config.cellCount]; omega

/-- Writing a cell keeps the canonical form. -/
theorem Memory.writeCell_wf {m : Memory} (h : m.wf) (a v : Word) : (m.writeCell a v).wf :=
  Memory.writeByte_wf (Memory.writeByte_wf h (loByte_lt a) _) (hiByte_lt a) _

/-- Writing consecutive cells keeps the canonical form. -/
theorem Memory.writeCells_wf {m : Memory} (h : m.wf) (a : Word) (ws : List Word) : (m.writeCells a ws).wf := by
  induction ws generalizing m a with
  | nil => exact h
  | cons w ws ih => exact ih (Memory.writeCell_wf h a w) (a + 1)

/-- Reset's memory is canonical. -/
theorem State.reset_mem_wf : State.reset.mem.wf := ⟨List.Pairwise.nil, by simp [State.reset]⟩

/-! ### Consecutive cells -/

theorem word_succ_toNat {a : Word} (h : a.toNat + 1 < Config.cellCount) : (a + 1).toNat = a.toNat + 1 := by
  simp only [Config.cellCount] at h
  have h1 : (1 : Word).toNat = 1 := rfl
  rw [BitVec.toNat_add, h1]; omega

theorem word_add_succ (a : Word) (k : Nat) : a + BitVec.ofNat 16 (k + 1) = (a + 1) + BitVec.ofNat 16 k := by
  have h1 : (1 : Word).toNat = 1 := rfl
  apply BitVec.eq_of_toNat_eq
  simp only [BitVec.toNat_add, BitVec.toNat_ofNat, h1]; omega

/-- Writing consecutive cells leaves the cells outside the range alone. -/
theorem Memory.readCell_writeCells_outside (ws : List Word) : ∀ (m : Memory) (a b : Word),
    a.toNat + ws.length ≤ Config.cellCount → b.toNat < a.toNat ∨ a.toNat + ws.length ≤ b.toNat →
    (m.writeCells a ws).readCell b = m.readCell b := by
  induction ws with
  | nil => intros; rfl
  | cons w ws ih =>
    intro m a b hl hb
    simp only [List.length_cons] at hl hb
    have hne : b ≠ a := by rintro rfl; omega
    cases ws with
    | nil => simpa [Memory.writeCells] using Memory.readCell_writeCell_of_ne m hne w
    | cons w' ws' =>
      simp only [List.length_cons] at hl hb ih
      have hw := word_succ_toNat (a := a) (by omega)
      rw [Memory.writeCells, ih _ _ _ (by omega) (by omega), Memory.readCell_writeCell_of_ne m hne]

/-- Writing consecutive cells puts each word in its cell. -/
theorem Memory.readCell_writeCells_inside (ws : List Word) : ∀ (m : Memory) (a : Word),
    a.toNat + ws.length ≤ Config.cellCount → ∀ (k : Nat) (h : k < ws.length),
    (m.writeCells a ws).readCell (a + BitVec.ofNat 16 k) = ws[k] := by
  induction ws with
  | nil => intro m a _ k h; simp at h
  | cons w ws ih =>
    intro m a hl k hk
    simp only [List.length_cons] at hl hk
    cases ws with
    | nil =>
      obtain rfl : k = 0 := by simpa using hk
      simp [Memory.writeCells]
    | cons w' ws' =>
      simp only [List.length_cons] at hl hk ih
      have hw := word_succ_toNat (a := a) (by omega)
      cases k with
      | zero =>
        rw [Memory.writeCells, Memory.readCell_writeCells_outside _ _ _ _ (by simp only [List.length_cons]; omega)
          (by left; simp only [BitVec.add_zero]; omega)]
        simp
      | succ k =>
        rw [Memory.writeCells, word_add_succ, ih _ _ (by omega) k (by omega)]
        simp

end Sys2Proof.Machine
end

