-- ==== Sys2Proof/Laws/State.lean ====
section
/-! SUPPORT. Each named update of `State`, field by field, so that no proof unfolds a record update. -/

namespace Sys2Proof.Machine

variable (s : State)

/-! ### Registers -/

/-- R0 reads as 0 (10_state.md R21). -/
@[simp] theorem State.reg_zero : s.reg 0#4 = 0#16 := by simp [State.reg]

/-- A write to R0 changes nothing (10_state.md R22). -/
@[simp] theorem State.setReg_zero (v : Word) : s.setReg 0#4 v = s := by simp [State.setReg]

theorem regIndex_lt (i : Reg) (h : i ≠ 0) : i.toNat - 1 < 15 := by
  have h0 : i.toNat ≠ 0 := fun e => h (BitVec.eq_of_toNat_eq e)
  have := i.isLt
  omega

theorem regIndex_inj {i j : Reg} (hi : i ≠ 0) (hj : j ≠ 0) (h : i.toNat - 1 = j.toNat - 1) : i = j := by
  have h0 : i.toNat ≠ 0 := fun e => hi (BitVec.eq_of_toNat_eq e)
  have h1 : j.toNat ≠ 0 := fun e => hj (BitVec.eq_of_toNat_eq e)
  exact BitVec.eq_of_toNat_eq (by omega)

/-- What any register reads as after any register write. -/
theorem State.reg_setReg (i j : Reg) (v : Word) :
    (s.setReg i v).reg j = if j = i ∧ i ≠ 0 then v else s.reg j := by
  by_cases hi : i = 0
  · subst hi; simp
  by_cases hj : j = 0
  · subst hj
    simp only [State.reg]
    by_cases h0 : (0 : Reg) = i
    · exact absurd h0.symm hi
    · have h0' : ¬ 0#4 = i := h0
      simp [h0']
  have hlt := regIndex_lt i hi
  have hlt' := regIndex_lt j hj
  simp only [State.setReg, State.reg, hi, hj, if_false, ne_eq, not_false_eq_true, and_true]
  by_cases h : j = i
  · subst h
    simp [Vector.getD, hlt]
  · have hne : i.toNat - 1 ≠ j.toNat - 1 := fun e => h (regIndex_inj hi hj e).symm
    simp [Vector.getD, hlt', h, hne]

@[simp] theorem State.reg_setReg_self (i : Reg) (v : Word) :
    (s.setReg i v).reg i = if i = 0 then 0 else v := by
  rw [State.reg_setReg]
  split <;> simp_all

theorem State.reg_setReg_of_ne {i j : Reg} (h : j ≠ i) (v : Word) : (s.setReg i v).reg j = s.reg j := by
  rw [State.reg_setReg]
  simp [h]

/-- Two register files that read alike are one. -/
theorem State.regs_ext {s t : State} (h : ∀ i, t.reg i = s.reg i) : t.regs = s.regs := by
  apply Vector.ext
  intro k hk
  have hi : (BitVec.ofNat 4 (k + 1)).toNat = k + 1 := by
    simp only [BitVec.toNat_ofNat]; omega
  have hne : ¬ BitVec.ofNat 4 (k + 1) = 0#4 := by
    intro e
    rw [e] at hi
    simp at hi
  have := h (BitVec.ofNat 4 (k + 1))
  simpa [State.reg, hne, hi, Vector.getD, hk] using this

/-! ### Fields -/

@[simp] theorem State.setReg_pc (i : Reg) (v : Word) : (s.setReg i v).pc = s.pc := by unfold State.setReg; split <;> rfl
@[simp] theorem State.setReg_sp (i : Reg) (v : Word) : (s.setReg i v).sp = s.sp := by unfold State.setReg; split <;> rfl
@[simp] theorem State.setReg_lr (i : Reg) (v : Word) : (s.setReg i v).lr = s.lr := by unfold State.setReg; split <;> rfl
@[simp] theorem State.setReg_flags (i : Reg) (v : Word) : (s.setReg i v).flags = s.flags := by unfold State.setReg; split <;> rfl
@[simp] theorem State.setReg_cpl (i : Reg) (v : Word) : (s.setReg i v).cpl = s.cpl := by unfold State.setReg; split <;> rfl
@[simp] theorem State.setReg_mem (i : Reg) (v : Word) : (s.setReg i v).mem = s.mem := by unfold State.setReg; split <;> rfl
@[simp] theorem State.setReg_cycles (i : Reg) (v : Word) : (s.setReg i v).cycles = s.cycles := by unfold State.setReg; split <;> rfl
@[simp] theorem State.setReg_halted (i : Reg) (v : Word) : (s.setReg i v).halted = s.halted := by unfold State.setReg; split <;> rfl
@[simp] theorem State.setReg_fault (i : Reg) (v : Word) : (s.setReg i v).fault = s.fault := by unfold State.setReg; split <;> rfl
@[simp] theorem State.setReg_handlers (i : Reg) (v : Word) : (s.setReg i v).handlers = s.handlers := by unfold State.setReg; split <;> rfl
@[simp] theorem State.setReg_illegalSet (i : Reg) (v : Word) : (s.setReg i v).illegalSet = s.illegalSet := by unfold State.setReg; split <;> rfl
@[simp] theorem State.setReg_hostCalls (i : Reg) (v : Word) : (s.setReg i v).hostCalls = s.hostCalls := by unfold State.setReg; split <;> rfl

@[simp] theorem State.setPc_pc (v : Word) : (s.setPc v).pc = v := rfl
@[simp] theorem State.setPc_sp (v : Word) : (s.setPc v).sp = s.sp := rfl
@[simp] theorem State.setPc_lr (v : Word) : (s.setPc v).lr = s.lr := rfl
@[simp] theorem State.setPc_flags (v : Word) : (s.setPc v).flags = s.flags := rfl
@[simp] theorem State.setPc_cpl (v : Word) : (s.setPc v).cpl = s.cpl := rfl
@[simp] theorem State.setPc_mem (v : Word) : (s.setPc v).mem = s.mem := rfl
@[simp] theorem State.setPc_cycles (v : Word) : (s.setPc v).cycles = s.cycles := rfl
@[simp] theorem State.setPc_halted (v : Word) : (s.setPc v).halted = s.halted := rfl
@[simp] theorem State.setPc_fault (v : Word) : (s.setPc v).fault = s.fault := rfl
@[simp] theorem State.setPc_handlers (v : Word) : (s.setPc v).handlers = s.handlers := rfl
@[simp] theorem State.setPc_illegalSet (v : Word) : (s.setPc v).illegalSet = s.illegalSet := rfl
@[simp] theorem State.setPc_hostCalls (v : Word) : (s.setPc v).hostCalls = s.hostCalls := rfl
@[simp] theorem State.reg_setPc (v : Word) (j : Reg) : (s.setPc v).reg j = s.reg j := rfl

@[simp] theorem State.setSp_pc (v : Word) : (s.setSp v).pc = s.pc := rfl
@[simp] theorem State.setSp_sp (v : Word) : (s.setSp v).sp = v := rfl
@[simp] theorem State.setSp_lr (v : Word) : (s.setSp v).lr = s.lr := rfl
@[simp] theorem State.setSp_flags (v : Word) : (s.setSp v).flags = s.flags := rfl
@[simp] theorem State.setSp_cpl (v : Word) : (s.setSp v).cpl = s.cpl := rfl
@[simp] theorem State.setSp_mem (v : Word) : (s.setSp v).mem = s.mem := rfl
@[simp] theorem State.setSp_cycles (v : Word) : (s.setSp v).cycles = s.cycles := rfl
@[simp] theorem State.setSp_halted (v : Word) : (s.setSp v).halted = s.halted := rfl
@[simp] theorem State.setSp_fault (v : Word) : (s.setSp v).fault = s.fault := rfl
@[simp] theorem State.setSp_handlers (v : Word) : (s.setSp v).handlers = s.handlers := rfl
@[simp] theorem State.setSp_illegalSet (v : Word) : (s.setSp v).illegalSet = s.illegalSet := rfl
@[simp] theorem State.setSp_hostCalls (v : Word) : (s.setSp v).hostCalls = s.hostCalls := rfl
@[simp] theorem State.reg_setSp (v : Word) (j : Reg) : (s.setSp v).reg j = s.reg j := rfl

@[simp] theorem State.setLr_pc (v : Word) : (s.setLr v).pc = s.pc := rfl
@[simp] theorem State.setLr_sp (v : Word) : (s.setLr v).sp = s.sp := rfl
@[simp] theorem State.setLr_lr (v : Word) : (s.setLr v).lr = v := rfl
@[simp] theorem State.setLr_flags (v : Word) : (s.setLr v).flags = s.flags := rfl
@[simp] theorem State.setLr_cpl (v : Word) : (s.setLr v).cpl = s.cpl := rfl
@[simp] theorem State.setLr_mem (v : Word) : (s.setLr v).mem = s.mem := rfl
@[simp] theorem State.setLr_cycles (v : Word) : (s.setLr v).cycles = s.cycles := rfl
@[simp] theorem State.setLr_halted (v : Word) : (s.setLr v).halted = s.halted := rfl
@[simp] theorem State.setLr_fault (v : Word) : (s.setLr v).fault = s.fault := rfl
@[simp] theorem State.setLr_handlers (v : Word) : (s.setLr v).handlers = s.handlers := rfl
@[simp] theorem State.setLr_illegalSet (v : Word) : (s.setLr v).illegalSet = s.illegalSet := rfl
@[simp] theorem State.setLr_hostCalls (v : Word) : (s.setLr v).hostCalls = s.hostCalls := rfl
@[simp] theorem State.reg_setLr (v : Word) (j : Reg) : (s.setLr v).reg j = s.reg j := rfl

@[simp] theorem State.setFlags_pc (f : Flags) : (s.setFlags f).pc = s.pc := rfl
@[simp] theorem State.setFlags_sp (f : Flags) : (s.setFlags f).sp = s.sp := rfl
@[simp] theorem State.setFlags_lr (f : Flags) : (s.setFlags f).lr = s.lr := rfl
@[simp] theorem State.setFlags_flags (f : Flags) : (s.setFlags f).flags = f := rfl
@[simp] theorem State.setFlags_cpl (f : Flags) : (s.setFlags f).cpl = s.cpl := rfl
@[simp] theorem State.setFlags_mem (f : Flags) : (s.setFlags f).mem = s.mem := rfl
@[simp] theorem State.setFlags_cycles (f : Flags) : (s.setFlags f).cycles = s.cycles := rfl
@[simp] theorem State.setFlags_halted (f : Flags) : (s.setFlags f).halted = s.halted := rfl
@[simp] theorem State.setFlags_fault (f : Flags) : (s.setFlags f).fault = s.fault := rfl
@[simp] theorem State.setFlags_handlers (f : Flags) : (s.setFlags f).handlers = s.handlers := rfl
@[simp] theorem State.setFlags_illegalSet (f : Flags) : (s.setFlags f).illegalSet = s.illegalSet := rfl
@[simp] theorem State.setFlags_hostCalls (f : Flags) : (s.setFlags f).hostCalls = s.hostCalls := rfl
@[simp] theorem State.reg_setFlags (f : Flags) (j : Reg) : (s.setFlags f).reg j = s.reg j := rfl

@[simp] theorem State.setRing_pc (r : Ring) : (s.setRing r).pc = s.pc := rfl
@[simp] theorem State.setRing_sp (r : Ring) : (s.setRing r).sp = s.sp := rfl
@[simp] theorem State.setRing_lr (r : Ring) : (s.setRing r).lr = s.lr := rfl
@[simp] theorem State.setRing_flags (r : Ring) : (s.setRing r).flags = s.flags := rfl
@[simp] theorem State.setRing_cpl (r : Ring) : (s.setRing r).cpl = r := rfl
@[simp] theorem State.setRing_mem (r : Ring) : (s.setRing r).mem = s.mem := rfl
@[simp] theorem State.setRing_cycles (r : Ring) : (s.setRing r).cycles = s.cycles := rfl
@[simp] theorem State.setRing_halted (r : Ring) : (s.setRing r).halted = s.halted := rfl
@[simp] theorem State.setRing_fault (r : Ring) : (s.setRing r).fault = s.fault := rfl
@[simp] theorem State.setRing_handlers (r : Ring) : (s.setRing r).handlers = s.handlers := rfl
@[simp] theorem State.setRing_illegalSet (r : Ring) : (s.setRing r).illegalSet = s.illegalSet := rfl
@[simp] theorem State.setRing_hostCalls (r : Ring) : (s.setRing r).hostCalls = s.hostCalls := rfl
@[simp] theorem State.reg_setRing (r : Ring) (j : Reg) : (s.setRing r).reg j = s.reg j := rfl

@[simp] theorem State.setCell_pc (a v : Word) : (s.setCell a v).pc = s.pc := rfl
@[simp] theorem State.setCell_sp (a v : Word) : (s.setCell a v).sp = s.sp := rfl
@[simp] theorem State.setCell_lr (a v : Word) : (s.setCell a v).lr = s.lr := rfl
@[simp] theorem State.setCell_flags (a v : Word) : (s.setCell a v).flags = s.flags := rfl
@[simp] theorem State.setCell_cpl (a v : Word) : (s.setCell a v).cpl = s.cpl := rfl
@[simp] theorem State.setCell_mem (a v : Word) : (s.setCell a v).mem = s.mem.writeCell a v := rfl
@[simp] theorem State.setCell_cycles (a v : Word) : (s.setCell a v).cycles = s.cycles := rfl
@[simp] theorem State.setCell_halted (a v : Word) : (s.setCell a v).halted = s.halted := rfl
@[simp] theorem State.setCell_fault (a v : Word) : (s.setCell a v).fault = s.fault := rfl
@[simp] theorem State.setCell_handlers (a v : Word) : (s.setCell a v).handlers = s.handlers := rfl
@[simp] theorem State.setCell_illegalSet (a v : Word) : (s.setCell a v).illegalSet = s.illegalSet := rfl
@[simp] theorem State.setCell_hostCalls (a v : Word) : (s.setCell a v).hostCalls = s.hostCalls := rfl
@[simp] theorem State.reg_setCell (a v : Word) (j : Reg) : (s.setCell a v).reg j = s.reg j := rfl

@[simp] theorem State.setHalted_pc : (s.setHalted).pc = s.pc := rfl
@[simp] theorem State.setHalted_sp : (s.setHalted).sp = s.sp := rfl
@[simp] theorem State.setHalted_lr : (s.setHalted).lr = s.lr := rfl
@[simp] theorem State.setHalted_flags : (s.setHalted).flags = s.flags := rfl
@[simp] theorem State.setHalted_cpl : (s.setHalted).cpl = s.cpl := rfl
@[simp] theorem State.setHalted_mem : (s.setHalted).mem = s.mem := rfl
@[simp] theorem State.setHalted_cycles : (s.setHalted).cycles = s.cycles := rfl
@[simp] theorem State.setHalted_halted : (s.setHalted).halted = true := rfl
@[simp] theorem State.setHalted_fault : (s.setHalted).fault = s.fault := rfl
@[simp] theorem State.setHalted_handlers : (s.setHalted).handlers = s.handlers := rfl
@[simp] theorem State.setHalted_illegalSet : (s.setHalted).illegalSet = s.illegalSet := rfl
@[simp] theorem State.setHalted_hostCalls : (s.setHalted).hostCalls = s.hostCalls := rfl
@[simp] theorem State.reg_setHalted (j : Reg) : (s.setHalted).reg j = s.reg j := rfl

@[simp] theorem State.latch_pc (f : FatalFault) : (s.latch f).pc = s.pc := rfl
@[simp] theorem State.latch_sp (f : FatalFault) : (s.latch f).sp = s.sp := rfl
@[simp] theorem State.latch_lr (f : FatalFault) : (s.latch f).lr = s.lr := rfl
@[simp] theorem State.latch_flags (f : FatalFault) : (s.latch f).flags = s.flags := rfl
@[simp] theorem State.latch_cpl (f : FatalFault) : (s.latch f).cpl = s.cpl := rfl
@[simp] theorem State.latch_mem (f : FatalFault) : (s.latch f).mem = s.mem := rfl
@[simp] theorem State.latch_cycles (f : FatalFault) : (s.latch f).cycles = s.cycles := rfl
@[simp] theorem State.latch_halted (f : FatalFault) : (s.latch f).halted = s.halted := rfl
@[simp] theorem State.latch_fault (f : FatalFault) : (s.latch f).fault = some f := rfl
@[simp] theorem State.latch_handlers (f : FatalFault) : (s.latch f).handlers = s.handlers := rfl
@[simp] theorem State.latch_illegalSet (f : FatalFault) : (s.latch f).illegalSet = s.illegalSet := rfl
@[simp] theorem State.latch_hostCalls (f : FatalFault) : (s.latch f).hostCalls = s.hostCalls := rfl
@[simp] theorem State.reg_latch (f : FatalFault) (j : Reg) : (s.latch f).reg j = s.reg j := rfl

@[simp] theorem State.countCycle_pc : (s.countCycle).pc = s.pc := rfl
@[simp] theorem State.countCycle_sp : (s.countCycle).sp = s.sp := rfl
@[simp] theorem State.countCycle_lr : (s.countCycle).lr = s.lr := rfl
@[simp] theorem State.countCycle_flags : (s.countCycle).flags = s.flags := rfl
@[simp] theorem State.countCycle_cpl : (s.countCycle).cpl = s.cpl := rfl
@[simp] theorem State.countCycle_mem : (s.countCycle).mem = s.mem := rfl
@[simp] theorem State.countCycle_cycles : (s.countCycle).cycles = s.cycles + 1 := rfl
@[simp] theorem State.countCycle_halted : (s.countCycle).halted = s.halted := rfl
@[simp] theorem State.countCycle_fault : (s.countCycle).fault = s.fault := rfl
@[simp] theorem State.countCycle_handlers : (s.countCycle).handlers = s.handlers := rfl
@[simp] theorem State.countCycle_illegalSet : (s.countCycle).illegalSet = s.illegalSet := rfl
@[simp] theorem State.countCycle_hostCalls : (s.countCycle).hostCalls = s.hostCalls := rfl
@[simp] theorem State.reg_countCycle (j : Reg) : (s.countCycle).reg j = s.reg j := rfl

@[simp] theorem State.countCall_pc : s.countCall.pc = s.pc := rfl
@[simp] theorem State.countCall_sp : s.countCall.sp = s.sp := rfl
@[simp] theorem State.countCall_lr : s.countCall.lr = s.lr := rfl
@[simp] theorem State.countCall_flags : s.countCall.flags = s.flags := rfl
@[simp] theorem State.countCall_cpl : s.countCall.cpl = s.cpl := rfl
@[simp] theorem State.countCall_mem : s.countCall.mem = s.mem := rfl
@[simp] theorem State.countCall_cycles : s.countCall.cycles = s.cycles := rfl
@[simp] theorem State.countCall_halted : s.countCall.halted = s.halted := rfl
@[simp] theorem State.countCall_fault : s.countCall.fault = s.fault := rfl
@[simp] theorem State.countCall_handlers : s.countCall.handlers = s.handlers := rfl
@[simp] theorem State.countCall_illegalSet : s.countCall.illegalSet = s.illegalSet := rfl
@[simp] theorem State.countCall_hostCalls : s.countCall.hostCalls = s.hostCalls + 1 := rfl
@[simp] theorem State.reg_countCall (j : Reg) : s.countCall.reg j = s.reg j := rfl

@[simp] theorem State.advancePc_pc : (s.advancePc).pc = s.pc + 1 := rfl
@[simp] theorem State.advancePc_sp : (s.advancePc).sp = s.sp := rfl
@[simp] theorem State.advancePc_lr : (s.advancePc).lr = s.lr := rfl
@[simp] theorem State.advancePc_flags : (s.advancePc).flags = s.flags := rfl
@[simp] theorem State.advancePc_cpl : (s.advancePc).cpl = s.cpl := rfl
@[simp] theorem State.advancePc_mem : (s.advancePc).mem = s.mem := rfl
@[simp] theorem State.advancePc_cycles : (s.advancePc).cycles = s.cycles := rfl
@[simp] theorem State.advancePc_halted : (s.advancePc).halted = s.halted := rfl
@[simp] theorem State.advancePc_fault : (s.advancePc).fault = s.fault := rfl
@[simp] theorem State.advancePc_handlers : (s.advancePc).handlers = s.handlers := rfl
@[simp] theorem State.advancePc_illegalSet : (s.advancePc).illegalSet = s.illegalSet := rfl
@[simp] theorem State.advancePc_hostCalls : (s.advancePc).hostCalls = s.hostCalls := rfl
@[simp] theorem State.reg_advancePc (j : Reg) : (s.advancePc).reg j = s.reg j := rfl

/-- The only field a register write can change is `regs`. -/
theorem State.setReg_eq (i : Reg) (v : Word) : s.setReg i v = { s with regs := (s.setReg i v).regs } := by
  unfold State.setReg; split <;> rfl

/-! ### The end of a step -/

theorem State.retire_of_none (h : s.fault = none) : s.retire = s.countCycle := by simp [State.retire, h]

theorem State.retire_of_some {f : FatalFault} (h : s.fault = some f) : s.retire = s := by simp [State.retire, h]

@[simp] theorem State.retire_pc : s.retire.pc = s.pc := by unfold State.retire; split <;> rfl
@[simp] theorem State.retire_sp : s.retire.sp = s.sp := by unfold State.retire; split <;> rfl
@[simp] theorem State.retire_lr : s.retire.lr = s.lr := by unfold State.retire; split <;> rfl
@[simp] theorem State.retire_flags : s.retire.flags = s.flags := by unfold State.retire; split <;> rfl
@[simp] theorem State.retire_cpl : s.retire.cpl = s.cpl := by unfold State.retire; split <;> rfl
@[simp] theorem State.retire_mem : s.retire.mem = s.mem := by unfold State.retire; split <;> rfl
@[simp] theorem State.retire_halted : s.retire.halted = s.halted := by unfold State.retire; split <;> rfl
@[simp] theorem State.retire_fault : s.retire.fault = s.fault := by unfold State.retire; split <;> rfl
@[simp] theorem State.retire_handlers : s.retire.handlers = s.handlers := by unfold State.retire; split <;> rfl
@[simp] theorem State.retire_illegalSet : s.retire.illegalSet = s.illegalSet := by unfold State.retire; split <;> rfl
@[simp] theorem State.retire_hostCalls : s.retire.hostCalls = s.hostCalls := by unfold State.retire; split <;> rfl
@[simp] theorem State.reg_retire (j : Reg) : s.retire.reg j = s.reg j := by unfold State.retire; split <;> rfl

/-- The cycle count after a step (40_execution_cycle.md R151). -/
theorem State.retire_cycles : s.retire.cycles = if s.fault = none then s.cycles + 1 else s.cycles := by
  unfold State.retire
  cases h : s.fault <;> simp

end Sys2Proof.Machine
end

