-- ==== Sys2Proof/Laws/Ops.lean ====
section
/-! SUPPORT. One lemma for each shared operation, saying once everything it can do. -/

namespace Sys2Proof.Machine

/-! ### The access check and the three checked accesses -/

/-- An access is allowed exactly when its kind is among the region's flags; the ring test never refuses one that is
(20_memory.md R64). -/
theorem check_ok_iff (a : Word) (kind : AccessKind) (ring : Ring) :
    check a kind ring = .ok () ↔ kind ∈ (region a).accessFlags := by
  unfold check
  cases region a <;> cases kind <;> cases ring <;> simp [Region.minRing, Region.accessFlags, Ring.level]

/-- What a refused access reports (20_memory.md R65). -/
theorem check_error {a : Word} {kind : AccessKind} {ring : Ring} {d : Violation} (h : check a kind ring = .error d) :
    kind ∉ (region a).accessFlags ∧ d.addr = a ∧ d.ring = ring ∧
      (d.kind = .invalidAccess ↔ region a = .reserved ∧ ring = .kernel) := by
  unfold check at h
  cases hr : region a <;> cases kind <;> cases ring <;>
    simp [hr, Region.minRing, Region.accessFlags, Ring.level] at h ⊢ <;> subst h <;> simp

theorem memRead_ok_iff {a v : Word} {s : State} :
    memRead a s = .ok v ↔ .read ∈ (region a).accessFlags ∧ v = s.mem.readCell a := by
  rw [← check_ok_iff a .read s.cpl]
  unfold memRead
  cases check a .read s.cpl <;> simp [eq_comm]

theorem memRead_error_iff {a : Word} {s : State} {d : Violation} :
    memRead a s = .error d ↔ check a .read s.cpl = .error d := by
  unfold memRead
  cases check a .read s.cpl <;> simp

theorem memWrite_ok_iff {a v : Word} {s t : State} :
    memWrite a v s = .ok t ↔ .write ∈ (region a).accessFlags ∧ t = s.setCell a v := by
  rw [← check_ok_iff a .write s.cpl]
  unfold memWrite
  cases check a .write s.cpl <;> simp [eq_comm]

theorem memWrite_error_iff {a v : Word} {s : State} {d : Violation} :
    memWrite a v s = .error d ↔ check a .write s.cpl = .error d := by
  unfold memWrite
  cases check a .write s.cpl <;> simp

theorem memFetch_ok_iff {a v : Word} {s : State} :
    memFetch a s = .ok v ↔ .execute ∈ (region a).accessFlags ∧ v = s.mem.readCell a := by
  rw [← check_ok_iff a .execute s.cpl]
  unfold memFetch
  cases check a .execute s.cpl <;> simp [eq_comm]

theorem memFetch_error_iff {a : Word} {s : State} {d : Violation} :
    memFetch a s = .error d ↔ check a .execute s.cpl = .error d := by
  unfold memFetch
  cases check a .execute s.cpl <;> simp

/-! ### Faults -/

@[simp] theorem Violation.withPc_pc (d : Violation) (pc : Word) : (d.withPc pc).pc = pc := by
  unfold Violation.withPc
  cases d.kind <;> rfl

/-- A fetch succeeds exactly in the code region, and then gives the cell at PC (40_execution_cycle.md R142). -/
theorem fetch_ok_iff {s : State} {w : Word} : fetch s = .ok w ↔ region s.pc = .code ∧ w = s.mem.readCell s.pc := by
  have hreg : AccessKind.execute ∈ (region s.pc).accessFlags ↔ region s.pc = .code := by
    cases region s.pc <;> simp [Region.accessFlags]
  rw [← hreg, ← memFetch_ok_iff]
  unfold fetch
  cases memFetch s.pc s <;> simp

/-- A failing fetch reports memory's descriptor with the PC added. -/
theorem fetch_error_iff {s : State} {f : FatalFault} :
    fetch s = .error f ↔ ∃ d, check s.pc .execute s.cpl = .error d ∧ f = d.withPc s.pc := by
  unfold fetch memFetch
  cases check s.pc .execute s.cpl <;> simp [eq_comm]

/-- Raising gives a next state that differs in the latch alone. -/
theorem raise_next {f : FatalFault} {s t : State} : raise f s = .next t ↔ t = s.latch f := by
  simp [raise, eq_comm]

/-! ### Writebacks and transfers -/

theorem aluWrite_next {rd : Reg} {r : Word} {c v : Bool} {s t : State} :
    aluWrite rd r c v s = .next t ↔ t = (s.setReg rd r).setFlags (resultFlags r c v) := by
  simp [aluWrite, eq_comm]

theorem branchIf_next {taken : Bool} {off : Byte} {s t : State} :
    branchIf taken off s = .next t ↔ t = if taken then s.setPc (branchTarget off s) else s := by
  simp [branchIf, eq_comm]

/-! ### Handlers -/

theorem findHandler_some {es : List HandlerEntry} {num : Word} {e : HandlerEntry} (h : findHandler es num = some e) :
    e ∈ es ∧ e.num = num := by
  induction es with
  | nil => simp [findHandler] at h
  | cons d rest ih =>
    unfold findHandler at h
    split at h
    · rename_i hd
      cases h
      exact ⟨List.mem_cons_self, hd⟩
    · exact ⟨List.mem_cons_of_mem _ (ih h).1, (ih h).2⟩

theorem findHandler_none {es : List HandlerEntry} {num : Word} :
    findHandler es num = none ↔ ∀ e ∈ es, e.num ≠ num := by
  induction es with
  | nil => simp [findHandler]
  | cons d rest ih =>
    unfold findHandler
    by_cases hd : d.num = num <;> simp [hd, ih]

/-- The state no handler can touch (45_system.md R224). -/
theorem applyWrite_untouched (s : State) (w : HandlerWrite Word) :
    (applyWrite s w).cycles = s.cycles ∧ (applyWrite s w).halted = s.halted ∧ (applyWrite s w).fault = s.fault ∧
      (applyWrite s w).handlers = s.handlers ∧ (applyWrite s w).illegalSet = s.illegalSet ∧
      (applyWrite s w).hostCalls = s.hostCalls := by
  cases w <;> simp [applyWrite]

theorem applyWrites_untouched (s : State) (ws : List (HandlerWrite Word)) :
    (applyWrites s ws).cycles = s.cycles ∧ (applyWrites s ws).halted = s.halted ∧ (applyWrites s ws).fault = s.fault ∧
      (applyWrites s ws).handlers = s.handlers ∧ (applyWrites s ws).illegalSet = s.illegalSet ∧
      (applyWrites s ws).hostCalls = s.hostCalls := by
  induction ws generalizing s with
  | nil => simp [applyWrites]
  | cons w ws ih =>
    obtain ⟨h1, h2, h3, h4, h5, h6⟩ := ih (applyWrite s w)
    obtain ⟨g1, g2, g3, g4, g5, g6⟩ := applyWrite_untouched s w
    exact ⟨h1.trans g1, h2.trans g2, h3.trans g3, h4.trans g4, h5.trans g5, h6.trans g6⟩

theorem applyReply_untouched (s : State) (r : HandlerReply) :
    (applyReply s r).cycles = s.cycles ∧ (applyReply s r).halted = s.halted ∧ (applyReply s r).fault = s.fault ∧
      (applyReply s r).handlers = s.handlers ∧ (applyReply s r).illegalSet = s.illegalSet ∧
      (applyReply s r).hostCalls = s.hostCalls := by
  simpa [applyReply] using applyWrites_untouched s r.writes

theorem applyWrites_append (s : State) (ws vs : List (HandlerWrite Word)) :
    applyWrites s (ws ++ vs) = applyWrites (applyWrites s ws) vs := by
  induction ws generalizing s with
  | nil => rfl
  | cons w ws ih => exact ih (applyWrite s w)

/-- A handler keeps memory canonical. -/
theorem applyWrites_mem_wf {s : State} (h : s.mem.wf) (ws : List (HandlerWrite Word)) : (applyWrites s ws).mem.wf := by
  induction ws generalizing s with
  | nil => exact h
  | cons w ws ih =>
    refine ih ?_
    cases w <;> simp only [applyWrite, State.setReg_mem, State.setPc_mem, State.setSp_mem, State.setLr_mem,
      State.setFlags_mem, State.setRing_mem, State.setCell_mem]
    all_goals first | exact h | exact Memory.writeCell_wf h _ _

/-- What holds of a state and is kept by each single write of a list holds after all of them: the induction over a
handler's writes, done once. -/
theorem applyWrites_induction {P : State → Prop} {s : State} (ws : List (HandlerWrite Word)) (h : P s)
    (step : ∀ u w, w ∈ ws → P u → P (applyWrite u w)) : P (applyWrites s ws) := by
  induction ws generalizing s with
  | nil => exact h
  | cons w ws ih =>
    exact ih (step s w (by simp) h) (fun u v hv hu => step u v (by simp [hv]) hu)

theorem execSyscall_unknown {s : State} (h : findHandler s.handlers (s.reg 1) = none) :
    execSyscall s = .next (s.latch (.unknownSyscall (s.reg 1) s.pcOfInstr)) := by
  simp only [execSyscall, h, raise]

theorem execSyscall_refused {s : State} {e : HandlerEntry} (h : findHandler s.handlers (s.reg 1) = some e)
    (hr : e.minRing.level < s.cpl.level) :
    execSyscall s = .next (s.latch (.privilegeViolation (s.reg 1) s.cpl s.pcOfInstr)) := by
  simp only [execSyscall, h, hr, if_true, raise]

theorem execSyscall_called {s : State} {e : HandlerEntry} (h : findHandler s.handlers (s.reg 1) = some e)
    (hr : ¬ e.minRing.level < s.cpl.level) : execSyscall s = callHandler e (s.reg 1) s := by
  simp only [execSyscall, h, hr, if_false]

theorem callHandler_stuck {s : State} {e : HandlerEntry} (h : e.body.outcome s = none) (num : Word) :
    callHandler e num s = .fault (.handlerNeverReturns num) := by
  simp only [callHandler, h]

theorem callHandler_returns {s : State} {e : HandlerEntry} {r : HandlerReply} (h : e.body.outcome s = some r)
    (num : Word) : callHandler e num s = .next (applyReply s.countCall r) := by
  simp only [callHandler, h]

/-- Everything SYSCALL can do (45_system.md R220, R222). -/
theorem execSyscall_cases (s : State) :
    (findHandler s.handlers (s.reg 1) = none ∧
      execSyscall s = .next (s.latch (.unknownSyscall (s.reg 1) s.pcOfInstr))) ∨
    ∃ e, findHandler s.handlers (s.reg 1) = some e ∧
      ((e.minRing.level < s.cpl.level ∧
          execSyscall s = .next (s.latch (.privilegeViolation (s.reg 1) s.cpl s.pcOfInstr))) ∨
       (¬ e.minRing.level < s.cpl.level ∧
          ((e.body.outcome s = none ∧ execSyscall s = .fault (.handlerNeverReturns (s.reg 1))) ∨
           ∃ r, e.body.outcome s = some r ∧ execSyscall s = .next (applyReply s.countCall r)))) := by
  cases h : findHandler s.handlers (s.reg 1) with
  | none => exact .inl ⟨rfl, execSyscall_unknown h⟩
  | some e =>
    refine .inr ⟨e, rfl, ?_⟩
    by_cases hr : e.minRing.level < s.cpl.level
    · exact .inl ⟨hr, execSyscall_refused h hr⟩
    · refine .inr ⟨hr, ?_⟩
      rw [execSyscall_called h hr]
      cases ho : e.body.outcome s with
      | none => exact .inl ⟨rfl, callHandler_stuck ho _⟩
      | some r => exact .inr ⟨r, rfl, callHandler_returns ho _⟩

/-! ### What a handler's relation can be -/

@[simp] theorem HandlerBody.outcome_host (s : State) (id : Nat) :
    (HandlerBody.host id).outcome s = Config.hostOutcome id s.hostCalls s.view := rfl

@[simp] theorem HandlerBody.outcome_returns (s : State) (ws : List (HandlerWrite HandlerExpr)) (ret : HandlerExpr) :
    (HandlerBody.returns ws ret).outcome s = some ⟨ws.map (HandlerWrite.eval s), ret.eval s⟩ := rfl

@[simp] theorem HandlerBody.outcome_ifZero (s : State) (test : HandlerExpr) (zero other : HandlerBody) :
    (HandlerBody.ifZero test zero other).outcome s =
      if test.eval s = 0 then zero.outcome s else other.outcome s := rfl

@[simp] theorem HandlerBody.outcome_never (s : State) : HandlerBody.never.outcome s = none := rfl

theorem HandlerExpr.eval_congr {s u : State} (hv : u.view = s.view) (hc : u.hostCalls = s.hostCalls) (x : HandlerExpr) :
    x.eval u = x.eval s := by
  simp only [State.view, HandlerView.mk.injEq] at hv
  obtain ⟨h1, h2, h3, h4, h5, h6, h7⟩ := hv
  induction x with
  | const v => rfl
  | reg i => simp only [HandlerExpr.eval, State.reg, h1]
  | pc => exact h2
  | sp => exact h3
  | lr => exact h4
  | flag f =>
    have hf : u.readFlag f = s.readFlag f := by cases f <;> simp only [State.readFlag, h5]
    simp only [HandlerExpr.eval, hf]
  | cpl => simp only [HandlerExpr.eval, h6]
  | cell a ih => simp only [HandlerExpr.eval, ih, h7]
  | add a b iha ihb => simp only [HandlerExpr.eval, iha, ihb]
  | sub a b iha ihb => simp only [HandlerExpr.eval, iha, ihb]
  | input source => simp only [HandlerExpr.eval, hc]

theorem HandlerWrite.eval_congr {s u : State} (hv : u.view = s.view) (hc : u.hostCalls = s.hostCalls)
    (w : HandlerWrite HandlerExpr) : w.eval u = w.eval s := by
  cases w <;> simp only [HandlerWrite.eval, HandlerExpr.eval_congr hv hc]

/-- A handler's outcome depends on what it can read at the call and on the count of the calls, and on nothing else: not
on `cycles`, the latch or the parameters (45_system.md R224). -/
theorem HandlerBody.outcome_congr {s u : State} (hv : u.view = s.view) (hc : u.hostCalls = s.hostCalls)
    (b : HandlerBody) : b.outcome u = b.outcome s := by
  induction b with
  | host id => simp only [HandlerBody.outcome, hv, hc]
  | returns ws ret =>
    simp only [HandlerBody.outcome, HandlerExpr.eval_congr hv hc, funext (HandlerWrite.eval_congr hv hc)]
  | ifZero test zero other ihz iho => simp only [HandlerBody.outcome, HandlerExpr.eval_congr hv hc, ihz, iho]
  | never => rfl

end Sys2Proof.Machine
end

