-- ==== Sys2Proof/Laws/Embedder.lean ====
section
/-! SUPPORT. The host's operations keep memory canonical, and what their helpers compute. -/

namespace Sys2Proof.Machine

theorem State.loadProgram_mem_wf {words : List Word} {base : Word} {s t : State} (hs : s.mem.wf)
    (h : s.loadProgram words base = some t) : t.mem.wf := by
  unfold State.loadProgram at h
  split at h
  · cases h; exact Memory.writeCells_wf hs _ _
  · cases h

theorem State.loadImage_mem_wf {bytes : List Byte} {addr : Word} {s t : State} (hs : s.mem.wf)
    (h : s.loadImage bytes addr = some t) : t.mem.wf := by
  unfold State.loadImage at h
  split at h
  · cases h
  · split at h
    · cases h; exact Memory.writeCells_wf hs _ _
    · cases h

theorem State.restore_mem_wf {s : State} (hs : s.mem.wf) (p : Snapshot) : (s.restore p).mem.wf :=
  Memory.writeCells_wf hs _ _

/-! ### Images and slices -/

/-- The words of an image are half as many as its bytes. -/
theorem imageWords_length : ∀ (bs : List Byte) (ws : List Word), imageWords bs = some ws → bs.length = 2 * ws.length
  | [], ws, h => by simp_all [imageWords]
  | [_], ws, h => by simp [imageWords] at h
  | lo :: hi :: rest, ws, h => by
    simp only [imageWords] at h
    cases hr : imageWords rest with
    | none => simp [hr] at h
    | some ws' =>
      have := imageWords_length rest ws' hr
      simp only [hr, Option.some.injEq] at h
      subst h
      simp only [List.length_cons]; omega

/-- Just the images of an odd number of bytes have no words. -/
theorem imageWords_none : ∀ bs : List Byte, imageWords bs = none ↔ bs.length % 2 = 1
  | [] => by simp [imageWords]
  | [_] => by simp [imageWords]
  | lo :: hi :: rest => by
    have ih := imageWords_none rest
    simp only [imageWords, List.length_cons]
    cases hr : imageWords rest with
    | none => have := ih.mp hr; simp; omega
    | some ws => have : ¬ rest.length % 2 = 1 := fun e => by simp [ih.mpr e] at hr
                 simp; omega

/-- The even byte of a word of an image is the low one. -/
theorem imageWords_getElem : ∀ (bs : List Byte) (ws : List Word), imageWords bs = some ws →
    ∀ (k : Nat) (h : 2 * k + 1 < bs.length) (h' : k < ws.length), ws[k] = bs[2 * k + 1] ++ bs[2 * k]
  | [], _, _, k, h, _ => by simp at h
  | [_], _, hw, _, _, _ => by simp [imageWords] at hw
  | lo :: hi :: rest, ws, hw, k, h, h' => by
    simp only [imageWords] at hw
    cases hr : imageWords rest with
    | none => simp [hr] at hw
    | some ws' =>
      simp only [hr, Option.some.injEq] at hw
      subst hw
      cases k with
      | zero => rfl
      | succ k =>
        have := imageWords_getElem rest ws' hr k (by simp at h; omega) (by simpa using h')
        simpa [Nat.mul_add] using this

theorem region_eq_reserved (a : Word) : region a = .reserved ↔ 0xFFFE ≤ a.toNat := by
  have h1 : (0x00FF : Word).toNat = 0x00FF := rfl
  have h2 : (0xEFFF : Word).toNat = 0xEFFF := rfl
  have h3 : (0xFFFD : Word).toNat = 0xFFFD := rfl
  unfold region
  simp only [BitVec.le_def, h1, h2, h3]
  split_ifs <;> simp <;> omega

/-- A range inside the address space avoids the reserved region just when it is empty or ends below it. -/
theorem rangeAvoidsReserved_iff : ∀ (n : Nat) (a : Word), a.toNat + n ≤ Config.cellCount →
    (rangeAvoidsReserved a n = true ↔ n = 0 ∨ a.toNat + n ≤ 0xFFFE)
  | 0, a, _ => by simp [rangeAvoidsReserved]
  | n + 1, a, h => by
    simp only [rangeAvoidsReserved, Bool.and_eq_true, bne_iff_ne, ne_eq, region_eq_reserved]
    cases n with
    | zero => simp only [rangeAvoidsReserved, and_true]; omega
    | succ n =>
      have hw := word_succ_toNat (a := a) (by omega)
      rw [rangeAvoidsReserved_iff (n + 1) (a + 1) (by omega), hw]; omega

@[simp] theorem Memory.length_readCells (m : Memory) : ∀ (n : Nat) (a : Word), (m.readCells a n).length = n
  | 0, _ => rfl
  | n + 1, a => by simp [Memory.readCells, Memory.length_readCells m n]

theorem Memory.getElem_readCells (m : Memory) : ∀ (n : Nat) (a : Word) (k : Nat) (h : k < (m.readCells a n).length),
    (m.readCells a n)[k] = m.readCell (a + BitVec.ofNat 16 k)
  | 0, _, k, h => by simp at h
  | n + 1, a, k, h => by
    cases k with
    | zero => simp [Memory.readCells]
    | succ k =>
      rw [word_add_succ, ← Memory.getElem_readCells m n (a + 1) k (by simpa [Memory.readCells] using h)]
      rfl

end Sys2Proof.Machine
end

