-- ==== Sys2Proof/Laws/Step.lean ====
section
/-! SUPPORT. What the execute stage can do and what a step can do, said once each (inversion lemmas), so that no proof
about every instruction unfolds all of them. -/

namespace Sys2Proof.Machine

/-- Everything the execute stage can do that gives a next state, with the instruction that does it. -/
inductive ExecEffect (i : Instr) (s : State) : State → Prop where
  /-- an ALU instruction -/
  | alu (hi : writesFlags i = true) (rd : Reg) (r : Word) (c v : Bool) :
      ExecEffect i s ((s.setReg rd r).setFlags (resultFlags r c v))
  /-- LOAD of a readable cell -/
  | load (rd rs : Reg) (off : Nibble) (hi : i = .load rd rs off)
      (h : .read ∈ (region (effectiveAddress rs off s)).accessFlags) :
      ExecEffect i s (s.setReg rd (s.mem.readCell (effectiveAddress rs off s)))
  /-- STORE to a writable cell -/
  | store (rd rs : Reg) (off : Nibble) (hi : i = .store rd rs off)
      (h : .write ∈ (region (effectiveAddress rs off s)).accessFlags) :
      ExecEffect i s (s.setCell (effectiveAddress rs off s) (s.reg rd))
  /-- a taken transfer -/
  | taken (rd : Reg) (off : Byte)
      (hi : i = .jmp rd off ∨ (i = .beq rd off ∧ s.reg rd = 0) ∨ (i = .bne rd off ∧ s.reg rd ≠ 0)) :
      ExecEffect i s (s.setPc (branchTarget off s))
  /-- a branch that falls through -/
  | fallThrough (rd : Reg) (off : Byte)
      (hi : (i = .beq rd off ∧ s.reg rd ≠ 0) ∨ (i = .bne rd off ∧ s.reg rd = 0)) : ExecEffect i s s
  /-- HALT -/
  | halt (hi : i = .halt) : ExecEffect i s s.setHalted
  /-- a refused memory access of LOAD or STORE -/
  | violation (rd rs : Reg) (off : Nibble) (kind : AccessKind) (d : Violation)
      (hi : (i = .load rd rs off ∧ kind = .read) ∨ (i = .store rd rs off ∧ kind = .write))
      (h : check (effectiveAddress rs off s) kind s.cpl = .error d) :
      ExecEffect i s (s.latch (d.withPc s.pcOfInstr))
  /-- Illegal -/
  | illegal (w : Word) (hi : i = .illegal w) : ExecEffect i s (s.latch (.illegalInstruction s.pcOfInstr))
  /-- SYSCALL of a number without a handler -/
  | unknownSyscall (p : BitVec 12) (hi : i = .syscall p) (h : findHandler s.handlers (s.reg 1) = none) :
      ExecEffect i s (s.latch (.unknownSyscall (s.reg 1) s.pcOfInstr))
  /-- SYSCALL refused by the ring filter -/
  | privilegeViolation (p : BitVec 12) (hi : i = .syscall p) (e : HandlerEntry)
      (h : findHandler s.handlers (s.reg 1) = some e) (hr : e.minRing.level < s.cpl.level) :
      ExecEffect i s (s.latch (.privilegeViolation (s.reg 1) s.cpl s.pcOfInstr))
  /-- SYSCALL whose handler returned -/
  | handler (p : BitVec 12) (hi : i = .syscall p) (e : HandlerEntry)
      (h : findHandler s.handlers (s.reg 1) = some e) (hr : ¬ e.minRing.level < s.cpl.level) (r : HandlerReply)
      (ho : e.body.outcome s = some r) : ExecEffect i s (applyReply s.countCall r)

/-- Inversion of `exec`. -/
theorem exec_effect {i : Instr} {s t : State} (h : exec i s = .next t) : ExecEffect i s t := by
  cases i with
  | halt => cases h; exact .halt rfl
  | syscall p =>
    rcases execSyscall_cases s with ⟨hn, he⟩ | ⟨e, hf, ⟨hr, he⟩ | ⟨hr, ⟨ho, he⟩ | ⟨r, ho, he⟩⟩⟩ <;>
      rw [show exec (.syscall p) s = execSyscall s from rfl, he] at h <;> cases h
    · exact .unknownSyscall p rfl hn
    · exact .privilegeViolation p rfl e hf hr
    · exact .handler p rfl e hf hr r ho
  | load rd rs off =>
    simp only [exec, execLoad] at h
    split at h
    · rename_i v hv
      obtain ⟨hm, rfl⟩ := memRead_ok_iff.mp hv
      cases h
      exact .load rd rs off rfl hm
    · rename_i d hd
      cases h
      exact .violation rd rs off .read d (.inl ⟨rfl, rfl⟩) (memRead_error_iff.mp hd)
  | store rd rs off =>
    simp only [exec, execStore] at h
    split at h
    · rename_i u hu
      obtain ⟨hm, rfl⟩ := memWrite_ok_iff.mp hu
      cases h
      exact .store rd rs off rfl hm
    · rename_i d hd
      cases h
      exact .violation rd rs off .write d (.inr ⟨rfl, rfl⟩) (memWrite_error_iff.mp hd)
  | jmp rd off => cases h; exact .taken rd off (.inl rfl)
  | beq rd off =>
    cases h
    by_cases hz : s.reg rd = 0#16
    · simpa [hz] using ExecEffect.taken rd off (.inr (.inl ⟨rfl, hz⟩))
    · simpa [hz] using ExecEffect.fallThrough (s := s) rd off (.inl ⟨rfl, hz⟩)
  | bne rd off =>
    cases h
    by_cases hz : s.reg rd = 0#16
    · simpa [hz] using ExecEffect.fallThrough (s := s) rd off (.inr ⟨rfl, hz⟩)
    · simpa [hz] using ExecEffect.taken rd off (.inr (.inr ⟨rfl, hz⟩))
  | illegal w => cases h; exact .illegal w rfl
  | _ => cases h; exact .alu rfl _ _ _ _

/-- Inversion of `step`: an inert step, a fetch fault, or the executed instruction and the end of the step. -/
theorem step_cases {s t : State} (h : step s = .next t) :
    ((s.halted = true ∨ s.fault ≠ none) ∧ t = s) ∨
    (s.halted = false ∧ s.fault = none ∧ ∃ f, fetch s = .error f ∧ t = s.latch f) ∨
    (s.halted = false ∧ s.fault = none ∧ region s.pc = .code ∧
      ∃ u, exec (decode s.illegalSet (s.mem.readCell s.pc)) s.advancePc = .next u ∧ t = u.retire) := by
  unfold step cycle at h
  cases hh : s.halted with
  | true =>
    simp only [hh, if_true] at h
    cases h
    exact .inl ⟨.inl rfl, rfl⟩
  | false =>
    cases hf : s.fault with
    | some f =>
      simp only [hh, hf] at h
      cases h
      exact .inl ⟨.inr (by simp), rfl⟩
    | none =>
      simp only [hh, hf] at h
      cases hw : fetch s with
      | error f =>
        simp only [hw] at h
        cases h
        exact .inr (.inl ⟨rfl, rfl, f, rfl, rfl⟩)
      | ok w =>
        obtain ⟨hc, rfl⟩ := fetch_ok_iff.mp hw
        simp only [hw] at h
        refine .inr (.inr ⟨rfl, rfl, hc, ?_⟩)
        cases he : exec (decode s.illegalSet (s.mem.readCell s.pc)) s.advancePc with
        | next u =>
          simp only [he, finish] at h
          cases h
          exact ⟨u, rfl, rfl⟩
        | fault r => simp [he, finish] at h
        | refused r => simp [he, finish] at h

end Sys2Proof.Machine
end

