-- ==== Sys2Proof/Tests/Slice0.lean ====
section
/-! SUPPORT. Small tests, with expected values from 95_test_vectors.md unless a comment says otherwise, and one witness
for the hypotheses of every statement of Obligations.lean that has any. -/

namespace Sys2Proof.Tests.Slice0

open Sys2Proof Sys2Proof.Machine

/-! ### Helpers -/

/-- A fresh machine with some registers and cells set. -/
def machine (regs cells : List (Word × Word)) : State :=
  cells.foldl (fun s c => s.setCell c.1 c.2) (regs.foldl (fun s c => s.setReg (c.1.setWidth 4) c.2) State.reset)

/-- The same with its PC set. -/
def machineAt (pc : Word) (regs cells : List (Word × Word)) : State := (machine regs cells).setPc pc

/-- A test of the next state. -/
def after (r : Result) (p : State → Bool) : Bool :=
  match r with
  | .next t => p t
  | .fault _ => false
  | .refused _ => false

/-- The next state of an outcome that has one. -/
def got (r : Result) : State :=
  match r with
  | .next t => t
  | .fault _ => State.reset
  | .refused _ => State.reset

theorem eq_next {r : Result} (h : after r (fun _ => true) = true) : r = .next (got r) := by
  cases r with
  | next t => rfl
  | fault f => cases h
  | refused f => cases h

/-- Flags written ZNCV, as the vectors write them. -/
def zncv (z n c v : Nat) : Flags := ⟨z == 1, n == 1, c == 1, v == 1⟩

/-- One row of an R-type table: the word has rd=3, rs=1, rt=2, and the flags before are all set. -/
def rRow (w : Nat) (a b r : Word) (f : Flags) : Bool :=
  after (step (((machine [(1, a), (2, b)] []).setFlags (zncv 1 1 1 1)).withFetchWord 16 w)) fun t =>
    t.reg 3 == r && t.flags == f && t.pc == 1 && t.cycles == 1 && t.reg 1 == a && t.reg 2 == b && t.fault == none

/-- One row of the I-type table: rd before, rd after, flags; every word there has rd=1. -/
def iRow (w : Nat) (old new : Word) (f : Flags) : Bool :=
  after (step (((machine [(1, old)] []).setFlags (zncv 0 1 1 1)).withFetchWord 16 w)) fun t =>
    t.reg 1 == new && t.flags == f && t.pc == 1 && t.cycles == 1 && t.fault == none

/-- One row of the control table: address, word, register 2 or 3, PC after; nothing else changes. -/
def cRow (pc : Word) (w : Nat) (regs : List (Word × Word)) (target : Word) : Bool :=
  let s := ((machineAt pc regs []).setFlags (zncv 1 0 0 1)).withFetchWord 16 w
  after (step s) fun t => t == { s with pc := target, cycles := 1 }

/-- The sample table H of section 2.8. -/
def tableH : List HandlerEntry :=
  [⟨0x0007, .user, .returns [] (.add (.reg 2) (.reg 3))⟩, ⟨0x0009, .kernel, .returns [.ring .kernel] (.const 0)⟩,
   ⟨0x0001, .user, .returns [.ring .kernel] (.const 0)⟩, ⟨0x0003, .supervisor, .returns [] (.const 0x1111)⟩]

/-- One row of the SYSCALL table: the word, the ring, R1, R2, R3, and the test of the state after. -/
def sRow (w : Nat) (ring : Ring) (r1 r2 r3 : Word) (p : State → Bool) : Bool :=
  after (step (((((State.construct tableH []).setReg 1 r1).setReg 2 r2).setReg 3 r3).setRing ring |>.withFetchWord 16 w)) p

/-! ### WellFormed refuses what it must (30_encoding.md R116, R109, R113) -/

theorem test_wf_refuses_shadowed_bne : (Instr.bne 0xF 0xFF).wellFormed = false := by decide
theorem test_wf_refuses_illegal_ffff : (Instr.illegal 0xFFFF).wellFormed = false := by decide
theorem test_wf_accepts_neighbours :
    (Instr.bne 0xF 0xFE).wellFormed && (Instr.bne 0xE 0xFF).wellFormed && (Instr.illegal 0xFFFE).wellFormed &&
    Instr.halt.wellFormed = true := by decide
theorem test_decodable_refuses_illegal_of_a_legal_nibble : (Instr.illegal 0xE100).decodable [0xF] = false := by decide
theorem test_decodable_refuses_row_of_an_illegal_nibble : (Instr.beq 1 0x00).decodable [0xE] = false := by decide
theorem test_decodable_refuses_shadowed_bne : (Instr.bne 0xF 0xFF).decodable [] = false := by decide
theorem test_decodable_refuses_illegal_ffff : (Instr.illegal 0xFFFF).decodable [0xF] = false := by decide

/-! ### Decoding: every constructor from a word written out from 30_encoding.md and section 2.1 -/

theorem test_decode_syscall : decode [] 0b0000101010111100 = .syscall 0xABC := by decide
theorem test_decode_add : decode [] 0b0001001100010010 = .add 3 1 2 := by decide
theorem test_decode_addi : decode [] 0b0010000100000001 = .addi 1 0x01 := by decide
theorem test_decode_sub : decode [] 0b0011001100100001 = .sub 3 2 1 := by decide
theorem test_decode_and : decode [] 0b0100000100100011 = .and 1 2 3 := by decide
theorem test_decode_or : decode [] 0b0101000100100011 = .or 1 2 3 := by decide
theorem test_decode_xor : decode [] 0b0110000100100011 = .xor 1 2 3 := by decide
theorem test_decode_not : decode [] 0b0111010101001111 = .not 5 4 0xF := by decide
theorem test_decode_shl : decode [] 0b1000001000100011 = .shl 2 2 3 := by decide
theorem test_decode_shr : decode [] 0b1001000100100011 = .shr 1 2 3 := by decide
theorem test_decode_load : decode [] 0b1010010000011000 = .load 4 1 0x8 := by decide
theorem test_decode_store : decode [] 0b1011001100010111 = .store 3 1 0x7 := by decide
theorem test_decode_loadi : decode [] 0b1100000011111111 = .loadi 0 0xFF := by decide
theorem test_decode_jmp : decode [] 0b1101011111111111 = .jmp 7 0xFF := by decide
theorem test_decode_beq : decode [] 0b1110001000000010 = .beq 2 0x02 := by decide
theorem test_decode_bne : decode [] 0b1111111111111110 = .bne 0xF 0xFE := by decide
theorem test_decode_halt : decode [0xF] 0b1111111111111111 = .halt := by decide
theorem test_decode_illegal : decode [0xF] 0b1111001111111101 = .illegal 0xF3FD := by decide
theorem test_decode_under_other_illegal_nibble : decode [0xE] 0xF3FD = .bne 3 0xFD := by decide
theorem test_encode_rows :
    [0x0ABC, 0x1312, 0x2101, 0x3321, 0x4123, 0x5123, 0x6123, 0x754F, 0x8223, 0x9123, 0xA418, 0xB317, 0xC0FF, 0xD7FF,
     0xE202, 0xFFFE, 0xFFFF].all (fun w => encode (decode [] w) == w) = true := by decide
/-- The column "opcode field" of 30_encoding.md R120: HALT and BNE share a nibble and not a field. -/
theorem test_opcode_field :
    Instr.halt.opcode = .sentinel 0xFFFF ∧ (Instr.bne 3 0xFD).opcode = .nibble 0xF ∧
    (Instr.syscall 0xABC).opcode = .nibble 0x0 ∧ (Instr.illegal 0xE100).opcode = .nibble 0xE := by decide
theorem test_decodeTableWord : decodeTableWord 16 0x1312 = some (.add 3 1 2) ∧ decodeTableWord 16 0x10000 = none := by
  decide

/-! ### ALU instructions (sections 2.2 to 2.5) -/

theorem test_add_rows :
    rRow 0x1312 0x0005 0x0003 0x0008 (zncv 0 0 0 0) && rRow 0x1312 0x7FFF 0x0001 0x8000 (zncv 0 1 0 1) &&
    rRow 0x1312 0x8000 0x8000 0x0000 (zncv 1 0 1 1) && rRow 0x1312 0xFFFF 0xFFFF 0xFFFE (zncv 0 1 1 0) = true := by decide
theorem test_sub_rows :
    rRow 0x3312 0x0003 0x0005 0xFFFE (zncv 0 1 1 0) && rRow 0x3312 0x8000 0x0001 0x7FFF (zncv 0 0 0 1) &&
    rRow 0x3312 0x0000 0x8000 0x8000 (zncv 0 1 1 1) && rRow 0x3312 0xFFFF 0x7FFF 0x8000 (zncv 0 1 0 0) = true := by decide
theorem test_and_rows :
    rRow 0x4312 0xF0F0 0x0FF0 0x00F0 (zncv 0 0 0 0) && rRow 0x4312 0xAAAA 0x5555 0x0000 (zncv 1 0 0 0) = true := by decide
theorem test_or_rows :
    rRow 0x5312 0xF0F0 0x0FF0 0xFFF0 (zncv 0 1 0 0) && rRow 0x5312 0x1234 0x0000 0x1234 (zncv 0 0 0 0) = true := by decide
theorem test_xor_rows :
    rRow 0x6312 0xF0F0 0x0FF0 0xFF00 (zncv 0 1 0 0) && rRow 0x6312 0xFFFF 0x8000 0x7FFF (zncv 0 0 0 0) = true := by decide
theorem test_not_rows :
    rRow 0x7312 0x00FF 0x1234 0xFF00 (zncv 0 1 0 0) && rRow 0x7312 0xFFFF 0x1234 0x0000 (zncv 1 0 0 0) = true := by decide
theorem test_shl_rows :
    rRow 0x8312 0x0001 0x000F 0x8000 (zncv 0 1 0 0) && rRow 0x8312 0x0001 0x0010 0x0001 (zncv 0 0 0 0) &&
    rRow 0x8312 0xABCD 0x0104 0xBCD0 (zncv 0 1 0 0) && rRow 0x8312 0x8000 0x0001 0x0000 (zncv 1 0 0 0) = true := by decide
theorem test_shr_rows :
    rRow 0x9312 0x8000 0x000F 0x0001 (zncv 0 0 0 0) && rRow 0x9312 0x8000 0x0010 0x8000 (zncv 0 1 0 0) &&
    rRow 0x9312 0xABCD 0x0104 0x0ABC (zncv 0 0 0 0) && rRow 0x9312 0x1234 0x001F 0x0000 (zncv 1 0 0 0) = true := by decide
theorem test_addi_rows :
    iRow 0x2180 0x7F80 0x8000 (zncv 0 1 0 1) && iRow 0x21FF 0xFFFF 0x00FE (zncv 0 0 1 0) &&
    iRow 0x21FF 0x8000 0x80FF (zncv 0 1 0 0) && iRow 0x2100 0x0000 0x0000 (zncv 1 0 0 0) = true := by decide
theorem test_loadi_rows :
    iRow 0xC1FF 0xABCD 0x00FF (zncv 0 0 0 0) && iRow 0xC180 0x0000 0x0080 (zncv 0 0 0 0) &&
    iRow 0xC100 0xABCD 0x0000 (zncv 1 0 0 0) = true := by decide

/-- Register aliasing, and R0 as destination with the flags of the computed sum (section 2.2). -/
theorem test_add_aliases :
    after (step ((machine [(1, 0x4000)] []).withFetchWord 16 0x1111)) (fun t => t.reg 1 == 0x8000 && t.flags == zncv 0 1 0 1) &&
    after (step ((machine [(1, 0xFFFF), (2, 1)] []).withFetchWord 16 0x1012)) (fun t => t.reg 0 == 0 && t.reg 1 == 0xFFFF &&
      t.flags == zncv 1 0 1 0) = true := by decide
/-- Scenario SC3, first step. -/
theorem test_loadi_r0 :
    after (step (State.reset.withFetchWord 16 0xC042)) (fun t => t.reg 0 == 0 && t.flags == zncv 0 0 0 0 && t.pc == 1) =
      true := by decide

/-! ### LOAD and STORE (section 2.6) -/

theorem test_load_rows :
    after (step ((machine [(1, 0x0102)] [(0x0101, 0x00AB)]).withFetchWord 16 0xA41F)) (fun t => t.reg 4 == 0x00AB &&
      t.pc == 1 && t.cycles == 1) &&
    after (step ((machine [(2, 0x0100)] [(0x0100, 0xBEEF)]).withFetchWord 16 0xA220)) (fun t => t.reg 2 == 0xBEEF) &&
    after (step (State.reset.withFetchWord 16 0xA100)) (fun t => t.reg 1 == 0xA100) = true := by decide
/-- The access is performed for R0 too (decision D13). -/
theorem test_load_r0_from_reserved :
    after (step ((machine [(1, 0xFFFE)] []).withFetchWord 16 0xA010)) (fun t => t.pc == 1 && t.cycles == 0 &&
      t.status == .err (.protectionFault 0xFFFE .user 0x0000)) = true := by decide
theorem test_store_rows :
    after (step (((machine [(1, 0x0100), (3, 0x00AB)] []).setFlags (zncv 1 0 1 1)).withFetchWord 16 0xB311)) (fun t =>
      t.mem.readCell 0x0101 == 0x00AB && t.pc == 1 && t.cycles == 1 && t.flags == zncv 1 0 1 1) &&
    after (step ((machine [(1, 0x0100)] [(0x0100, 0x1234)]).withFetchWord 16 0xB010)) (fun t => t.mem.readCell 0x0100 == 0 &&
      t.mem == State.reset.mem.writeCell 0 0xB010) &&
    after (step ((machine [(1, 0x5555), (2, 0xFFFD)] []).withFetchWord 16 0xB120)) (fun t =>
      t.mem.readCell 0xFFFD == 0x5555) = true := by decide
/-- Scenario SC4, the same in ring 0, and a store to code. -/
theorem test_store_faults :
    after (step ((machine [(2, 0xFFFE)] []).withFetchWord 16 0xB120)) (fun t => t.halted == false && t.cycles == 0 &&
      t.mem.readCell 0xFFFE == 0 && t.fault == some (.protectionFault 0xFFFE .user 0x0000)) &&
    after (step (((machine [(2, 0xFFFE)] []).setRing .kernel).withFetchWord 16 0xB120)) (fun t =>
      t.fault == some (.invalidAccess 0xFFFE .kernel 0x0000)) &&
    after (step ((machine [(1, 7)] []).withFetchWord 16 0xB100)) (fun t => t.mem.readCell 0 == 0xB100 && t.pc == 1 &&
      t.fault == some (.protectionFault 0x0000 .user 0x0000)) = true := by decide

/-! ### Control transfer (section 2.7) -/

theorem test_jmp_rows :
    cRow 0x0000 0xD0FF [] 0x0000 && cRow 0x0010 0xD07F [] 0x0090 && cRow 0x0090 0xD080 [] 0x0011 &&
    cRow 0x0000 0xD0FE [] 0xFFFF && cRow 0x00FF 0xD000 [] 0x0100 = true := by decide
theorem test_beq_rows :
    cRow 0x0004 0xE202 [] 0x0007 && cRow 0x0004 0xE202 [(2, 1)] 0x0005 && cRow 0x0003 0xE0FC [] 0x0000 = true := by decide
theorem test_bne_rows :
    cRow 0x0004 0xF3FD [(3, 0x8000)] 0x0002 && cRow 0x0004 0xF3FD [] 0x0005 && cRow 0x0003 0xF0FC [] 0x0004 = true := by
  decide

/-! ### SYSCALL, HALT, Illegal (section 2.8) -/

theorem test_syscall_served :
    sRow 0x0000 .user 0x0007 0x001E 0x000C (fun t => t.reg 1 == 0x002A && t.pc == 1 && t.cycles == 1) &&
    sRow 0x0000 .user 0x0007 0xFFFF 0x0002 (fun t => t.reg 1 == 0x0001) &&
    sRow 0x0ABC .user 0x0007 0x0001 0x0001 (fun t => t.reg 1 == 0x0002) &&
    sRow 0x0000 .user 0x0001 0 0 (fun t => t.reg 1 == 0 && t.cpl == .kernel && t.cycles == 1) &&
    sRow 0x0000 .kernel 0x0009 0 0 (fun t => t.reg 1 == 0 && t.cpl == .kernel) &&
    sRow 0x0000 .supervisor 0x0003 0 0 (fun t => t.reg 1 == 0x1111) = true := by decide
theorem test_syscall_refused :
    sRow 0x0000 .user 0x0009 0 0 (fun t => t.fault == some (.privilegeViolation 0x0009 .user 0x0000) && t.pc == 1 &&
      t.reg 1 == 0x0009 && t.cycles == 0) &&
    sRow 0x0000 .supervisor 0x0009 0 0 (fun t => t.fault == some (.privilegeViolation 0x0009 .supervisor 0x0000)) &&
    sRow 0x0000 .user 0x0107 0 0 (fun t => t.fault == some (.unknownSyscall 0x0107 0x0000)) &&
    after (step State.reset) (fun t => t.fault == some (.unknownSyscall 0x0000 0x0000) && t.pc == 1 && t.cycles == 0) =
      true := by decide
theorem test_halt :
    after (step (State.reset.withFetchWord 16 0xFFFF)) (fun t => t.halted && t.pc == 1 && t.cycles == 1 &&
      t.status == .halted && after (step t) (fun u => u == t)) = true := by decide
/-- Scenario SC5. -/
theorem test_illegal :
    after (step ((State.construct [] [0xE]).withFetchWord 16 0xE100)) (fun t => t.pc == 1 && t.cycles == 0 &&
      t.status == .err (.illegalInstruction 0x0000)) = true := by decide

/-! ### Fetch faults and the host (sections 2.9, 2.10) -/

theorem test_fetch_faults :
    after (step (machineAt 0x0100 [] [])) (fun t => t.fault == some (.protectionFault 0x0100 .user 0x0100) && t.pc == 0x0100) &&
    after (step ((machineAt 0xFFFE [] []).setRing .kernel)) (fun t => t.fault == some (.invalidAccess 0xFFFE .kernel 0xFFFE)) &&
    after (step (machineAt 0xF000 [] [])) (fun t => t.fault == some (.protectionFault 0xF000 .user 0xF000)) = true := by decide

/-- Program P1 loaded. -/
def p1 : State := machine [] [(0, 0xC105), (1, 0xC203), (2, 0x1312), (3, 0xFFFF)]

theorem test_loadProgram : State.reset.loadProgram [0xC105, 0xC203, 0x1312, 0xFFFF] 0 = some p1 := by decide
theorem test_loadProgram_bounds :
    (State.reset.loadProgram [0xFFFF] 0x00FF).isSome && (State.reset.loadProgram [0xFFFF, 0xFFFF] 0x00FF).isNone &&
    (State.reset.loadProgram [0xFFFF] 0x0100).isNone = true := by decide
theorem test_run_p1 :
    (run 4 p1).status = .halted ∧ (run 4 p1).consumed = 4 ∧ (run 4 p1).state.reg 3 = 8 ∧ (run 4 p1).state.pc = 4 ∧
    (run 3 p1).status = .cycleBudgetExhausted 3 3 ∧ (run 0 p1).status = .cycleBudgetExhausted 0 0 := by decide
theorem test_loadImage :
    (State.reset.loadImage [0x34, 0x12] 0x0200).map (fun t => t.mem.readCell 0x0200) = some 0x1234 ∧
    State.reset.loadImage [0, 0, 0, 0] 0xFFFD = none ∧ State.reset.loadImage [0, 0, 0] 0x0200 = none := by decide
theorem test_hexText :
    parseHexText "C105 0xC203 ; add\n0x1312 FFFF" = some [0xC105, 0xC203, 0x1312, 0xFFFF] ∧
    parseHexText "0x5 0x42 0xABC" = some [0x0005, 0x0042, 0x0ABC] ∧ parseHexText "C1" = none := by decide
/-- A second handler under one number is refused (93_implementation_defined.md row 15). -/
theorem test_installHandler :
    (State.reset.installHandler ⟨7, .user, .host 0⟩).map (fun t => (t.handlers, t.installHandler ⟨7, .kernel, .never⟩)) =
      some ([⟨7, .user, .host 0⟩], none) := by decide

/-! ### Witnesses: states and operands that meet the hypotheses of each statement, at the boundaries of its clauses -/

/-- A state whose next step is SYSCALL of number `num` in a ring, with the numbers and rings of the table H and one
handler under all of them. -/
def calling (num : Word) (ring : Ring) (body : HandlerBody) : State :=
  ((State.construct [⟨7, .user, body⟩, ⟨9, .kernel, body⟩, ⟨1, .user, body⟩, ⟨3, .supervisor, body⟩] []).setReg 1 num
    |>.setRing ring).withFetchWord 16 0x0000

/-- A state whose next step runs a word, with one register set. -/
def running (w : Nat) (i : Word) (v : Word) : State := (machine [(i, v)] []).withFetchWord 16 w

/-- An outcome that does each thing a handler can do, and the handler whose outcome it always is. -/
def busyReply : HandlerReply :=
  ⟨[.reg 2 5, .pc 0x0020, .sp 0x8000, .lr 0x0030, .flags ⟨true, false, true, false⟩, .ring .kernel, .cell 0x00FF 7,
    .cell 0xFFFE 9], 0x0042⟩

def busy : HandlerBody :=
  .returns [.reg 2 (.const 5), .pc (.const 0x0020), .sp (.const 0x8000), .lr (.const 0x0030),
    .flags ⟨true, false, true, false⟩, .ring .kernel, .cell (.const 0x00FF) (.const 7), .cell (.const 0xFFFE) (.const 9)]
    (.const 0x0042)

/-- A handler that writes SP and returns the sum of its first two arguments. -/
def spSum : HandlerBody := .returns [.sp (.const 4)] (.add (.reg 2) (.reg 3))

/-- A handler that sends its caller back to the cell it was called from, with the number it was called by. -/
def again : HandlerBody := .returns [.pc (.const 0x0000)] (.reg 1)

/-- The calls of a handler that always returns have no end: each leaves the same call to be made, whatever the counts
(45_system.md R224). -/
theorem test_syscall_again (k c : Nat) :
    step { calling 7 .user again with hostCalls := k, cycles := c } =
      .next { calling 7 .user again with hostCalls := k + 1, cycles := c + 1 } := by
  with_unfolding_all rfl
/-- A handler whose relation has no outcome is stuck (45_system.md R224), and one that looks at its state returns on
some states only. -/
theorem test_syscall_stuck :
    step (calling 7 .user .never) = .fault (.handlerNeverReturns 7) ∧
    step (calling 7 .user (.ifZero (.reg 2) .never again)) = .fault (.handlerNeverReturns 7) ∧
    after (step ((calling 7 .user (.ifZero (.reg 2) .never again)).setReg 2 1)) (fun t => t.reg 1 == 7) = true :=
  ⟨rfl, rfl, by decide⟩

theorem calls_intro {s : State} {e : HandlerEntry} {r : HandlerReply} (h1 : findHandler s.handlers (s.reg 1) = some e)
    (h2 : s.cpl.level ≤ e.minRing.level) (h3 : e.body.outcome s = some r) : s.Calls e r := ⟨h1, h2, h3⟩

theorem calls_unique {s : State} {e e' : HandlerEntry} {r r' : HandlerReply} (h : s.Calls e r) (h' : s.Calls e' r') :
    e' = e ∧ r' = r := by
  obtain rfl := Option.some.inj (h'.known.symm.trans h.known)
  exact ⟨rfl, Option.some.inj (h'.outcome.symm.trans h.outcome)⟩

theorem witness_DecodeOfEncode :
    (Instr.bne 0xF 0xFE).decodable [] = true ∧ (Instr.illegal 0xE100).decodable [0xE] = true ∧
    Instr.halt.decodable [0xF] = true ∧ (Instr.syscall 0xFFF).decodable [] = true ∧
    (Instr.load 0xF 0 0x8).decodable [0xB] = true := by decide

theorem witness_HaltShadowsOneBranch :
    ¬ ((0xF : Reg) = 0xF ∧ (0xFE : Byte) = 0xFF) ∧ ¬ ((0xE : Reg) = 0xF ∧ (0xFF : Byte) = 0xFF) := by decide

theorem witness_IllegalByNibbleAlone :
    decode [0xE] 0xE100 = .illegal 0xE100 ∧ (0xE100 : Word) ≠ 0xFFFF ∧ opField 0xE100 ∈ [(0xE : Nibble)] := by decide

theorem witness_RegisterFileReadsAndWrites : (1 : Reg) ≠ 0 ∧ (0xF : Reg) ≠ 0 := by decide

theorem witness_RegionLookup :
    ([(0x0000 : Word), 0x00FF].all fun a => region a == .code) = true ∧ ([(0x0100 : Word), 0xEFFF].all fun a => region a == .data) = true ∧
    ([(0xF000 : Word), 0xFFFD].all fun a => region a == .stack) = true ∧ ([(0xFFFE : Word), 0xFFFF].all fun a => region a == .reserved) = true := by
  decide

theorem witness_AccessOutcomes :
    region 0x00FF = .code ∧ region 0x0100 = .data ∧ region 0xFFFD = .stack ∧ region 0xFFFE = .reserved := by decide

theorem witness_CheckedAccesses :
    check 0xFFFD .read .user = .ok () ∧ check 0xFFFE .read .user = .error ⟨.protectionFault, 0xFFFE, .user⟩ ∧
    check 0x00FF .execute .user = .ok () ∧ check 0x0100 .execute .kernel = .error ⟨.protectionFault, 0x0100, .kernel⟩ ∧
    memFetch p1.pc p1 = .ok 0xC105 ∧
    check 0x0100 .write .user = .ok () ∧ check 0xFFFE .write .kernel = .error ⟨.invalidAccess, 0xFFFE, .kernel⟩ :=
  ⟨rfl, rfl, rfl, rfl, rfl, rfl, rfl⟩

theorem witness_EqualCellsEqualMemory :
    (machine [] [(5, 0x1200), (3, 7)]).mem.wf ∧ (machine [] [(3, 7), (9, 1), (5, 0x1200), (9, 0)]).mem.wf ∧
    (machine [] [(5, 0x1200), (3, 7)]).mem = (machine [] [(3, 7), (9, 1), (5, 0x1200), (9, 0)]).mem := by decide

theorem witness_StepRunsDecodedInstruction :
    p1.Live ∧ region p1.pc = .code ∧ decode p1.illegalSet (p1.mem.readCell p1.pc) = .loadi 1 5 :=
  ⟨⟨by decide, by decide⟩, by decide, by decide⟩

theorem witness_FetchOutsideCodeFaults :
    ([(0x0100 : Word), 0xF000, 0xFFFE, 0xFFFF].all fun a => !(machineAt a [] []).halted &&
      (machineAt a [] []).fault == none && region (machineAt a [] []).pc != .code) = true ∧
    ((machineAt 0xFFFE [] []).setRing .kernel).cpl = .kernel := by decide

theorem witness_FetchOutsideCodeFaults_memFetch :
    memFetch 0x0100 (machineAt 0x0100 [] []) = .error ⟨.protectionFault, 0x0100, .user⟩ ∧
    memFetch 0xFFFE ((machineAt 0xFFFE [] []).setRing .kernel) = .error ⟨.invalidAccess, 0xFFFE, .kernel⟩ := ⟨rfl, rfl⟩

theorem witness_StepOfEndedMachineIsInert :
    (State.reset.setHalted).halted = true ∧ (State.reset.latch (.unknownSyscall 0 0)).fault ≠ none := by decide

theorem witness_AddCompletes : (0x1 : Nibble) ∉ ([] : List Nibble) ∧ (0x1 : Nibble) ∉ [(0x0 : Nibble), 0x2, 0xF] := by decide
theorem witness_SubCompletes : (0x3 : Nibble) ∉ ([] : List Nibble) ∧ (0x3 : Nibble) ∉ [(0x2 : Nibble), 0x4] := by decide
theorem witness_LogicCompletes :
    (0x4 : Nibble) ∉ [(0x3 : Nibble), 0x5] ∧ (0x5 : Nibble) ∉ [(0x4 : Nibble), 0x6] ∧
    (0x6 : Nibble) ∉ [(0x5 : Nibble), 0x7] ∧ (0x7 : Nibble) ∉ [(0x6 : Nibble), 0x8] := by decide
theorem witness_ShiftsComplete :
    (0x8 : Nibble) ∉ [(0x7 : Nibble), 0x9] ∧ (0x9 : Nibble) ∉ [(0x8 : Nibble), 0xA] := by decide
theorem witness_LoadiCompletes : (0xC : Nibble) ∉ ([] : List Nibble) ∧ (0xC : Nibble) ∉ [(0xB : Nibble), 0xD] := by decide
theorem witness_AddiCompletes : (0x2 : Nibble) ∉ ([] : List Nibble) ∧ (0x2 : Nibble) ∉ [(0x1 : Nibble), 0x3] := by decide
theorem witness_JumpCompletes : (0xD : Nibble) ∉ ([] : List Nibble) ∧ (0xD : Nibble) ∉ [(0xC : Nibble), 0xE] := by decide
theorem witness_BranchIfZeroCompletes : (0xE : Nibble) ∉ ([] : List Nibble) ∧ (0xE : Nibble) ∉ [(0xD : Nibble), 0xF] := by
  decide
theorem witness_BranchIfNotZeroCompletes : (0xF : Nibble) ∉ ([] : List Nibble) ∧ (0xF : Nibble) ∉ [(0x0 : Nibble), 0xE] := by
  decide

theorem witness_LoadCompletes_word : (0xA : Nibble) ∉ ([] : List Nibble) ∧ (0xA : Nibble) ∉ [(0x9 : Nibble), 0xB] := by
  decide

theorem witness_LoadCompletes :
    ([(0x0000 : Word), 0x00FF, 0x0100, 0xEFFF, 0xF000, 0xFFFD].all fun a =>
      region (effectiveAddress 1 0 (machine [(1, a)] [])) != .reserved) = true := by decide

theorem witness_LoadFromReservedFaults :
    ([(0xFFFE : Word), 0xFFFF].all fun a => region (effectiveAddress 1 0 (machine [(1, a)] [])) == .reserved) = true ∧
    region (effectiveAddress 0 0xF ((machine [] []).setRing .kernel)) = .reserved := by decide

theorem witness_StoreCompletes_word : (0xB : Nibble) ∉ ([] : List Nibble) ∧ (0xB : Nibble) ∉ [(0xA : Nibble), 0xC] := by
  decide

theorem witness_StoreCompletes :
    ([(0x0100 : Word), 0xEFFF].all fun a => region (effectiveAddress 1 0 (machine [(1, a)] [])) == .data) = true ∧
    ([(0xF000 : Word), 0xFFFD].all fun a => region (effectiveAddress 1 0 (machine [(1, a)] [])) == .stack) = true := by decide

theorem witness_StoreToProtectedFaults :
    ([(0x0000 : Word), 0x00FF].all fun a => region (effectiveAddress 1 0 (machine [(1, a)] [])) == .code) = true ∧
    ([(0xFFFE : Word), 0xFFFF].all fun a => region (effectiveAddress 1 0 (machine [(1, a)] [])) == .reserved) = true ∧
    ((machine [(1, 0xFFFF)] []).setRing .kernel).cpl = .kernel := by decide

theorem witness_StoreThenLoad :
    region (effectiveAddress 1 0x1 (machine [(1, 0x00FF), (2, 0x0101)] [])) = .data ∧
    effectiveAddress 2 0xF (machine [(1, 0x00FF), (2, 0x0101)] []) =
      effectiveAddress 1 0x1 (machine [(1, 0x00FF), (2, 0x0101)] []) ∧
    region (effectiveAddress 1 0x0 (machine [(1, 0xF000)] [])) = .stack := by decide

theorem witness_SyscallOfUnknownNumber :
    State.reset.Live ∧ region State.reset.pc = .code ∧ State.reset.nextInstr = .syscall 0 ∧
    (∀ e ∈ State.reset.handlers, e.num ≠ State.reset.reg 1) ∧
    (calling 0x0107 .user busy).nextInstr = .syscall 0 ∧
    (∀ e ∈ (calling 0x0107 .user busy).handlers, e.num ≠ (calling 0x0107 .user busy).reg 1) :=
  ⟨⟨by decide, by decide⟩, by decide, by decide, by decide, by decide, by decide⟩

theorem witness_SyscallRefusedByRing :
    (calling 3 .user busy).Live ∧ region (calling 3 .user busy).pc = .code ∧
    (calling 3 .user busy).nextInstr = .syscall 0 ∧
    findHandler (calling 3 .user busy).handlers ((calling 3 .user busy).reg 1) = some ⟨3, .supervisor, busy⟩ ∧
    Ring.supervisor.level < (calling 3 .user busy).cpl.level :=
  ⟨⟨by decide, by decide⟩, by decide, by decide, by decide, by decide⟩

theorem calls_busy : (calling 9 .kernel busy).Calls ⟨9, .kernel, busy⟩ busyReply :=
  calls_intro (by decide) (by decide) (by decide)

theorem steps_call_busy : (calling 9 .kernel busy).advancePc.Calls ⟨9, .kernel, busy⟩ busyReply :=
  calls_intro (by decide) (by decide) (by decide)

/-- The ring equal to the handler's minimum ring is let through; R3, byte 1024 and, with no writes, everything else are
untouched. -/
theorem witness_SyscallCompletes :
    (calling 9 .kernel busy).Calls ⟨9, .kernel, busy⟩ busyReply ∧ (calling 7 .user (.returns [] (.const 42))).Calls ⟨7, .user, .returns [] (.const 42)⟩ ⟨[], 42⟩ ∧
    (3 : Reg) ≠ 1 ∧ (∀ v, HandlerWrite.reg 3 v ∉ busyReply.writes) ∧ (∀ v, HandlerWrite.pc v ∉ ([] : List (HandlerWrite Word))) ∧
    (∀ v, HandlerWrite.sp v ∉ ([] : List (HandlerWrite Word))) ∧ (∀ v, HandlerWrite.lr v ∉ ([] : List (HandlerWrite Word))) ∧
    (∀ f, HandlerWrite.flags f ∉ ([] : List (HandlerWrite Word))) ∧ (∀ q, HandlerWrite.ring q ∉ ([] : List (HandlerWrite Word))) ∧
    (∀ a v, HandlerWrite.cell a v ∈ busyReply.writes → 1024 ≠ loByte a ∧ 1024 ≠ hiByte a) := by
  refine ⟨calls_busy, calls_intro (by decide) (by decide) (by decide), by decide, ?_, ?_, ?_, ?_, ?_, ?_, ?_⟩
  all_goals simp [busyReply]
  intro a v h
  obtain ⟨rfl, -⟩ | ⟨rfl, -⟩ := h <;> decide

theorem witness_HandlerWritesTakeEffect :
    (calling 9 .kernel busy).Calls ⟨9, .kernel, busy⟩ busyReply ∧
    exec (.syscall 0) (calling 9 .kernel busy) = .next (got (exec (.syscall 0) (calling 9 .kernel busy))) ∧
    busyReply.writes = [] ++ .reg 2 5 :: busyReply.writes.drop 1 ∧ (∀ u, .reg 2 u ∉ busyReply.writes.drop 1) ∧
    (2 : Reg) ≠ 1 ∧
    busyReply.writes = busyReply.writes.take 1 ++ .pc 0x0020 :: busyReply.writes.drop 2 ∧
    (∀ u, .pc u ∉ busyReply.writes.drop 2) ∧
    busyReply.writes = busyReply.writes.take 2 ++ .sp 0x8000 :: busyReply.writes.drop 3 ∧
    (∀ u, .sp u ∉ busyReply.writes.drop 3) ∧
    busyReply.writes = busyReply.writes.take 3 ++ .lr 0x0030 :: busyReply.writes.drop 4 ∧
    (∀ u, .lr u ∉ busyReply.writes.drop 4) ∧
    busyReply.writes = busyReply.writes.take 4 ++ .flags ⟨true, false, true, false⟩ :: busyReply.writes.drop 5 ∧
    (∀ u, .flags u ∉ busyReply.writes.drop 5) ∧
    busyReply.writes = busyReply.writes.take 5 ++ .ring .kernel :: busyReply.writes.drop 6 ∧
    (∀ u, .ring u ∉ busyReply.writes.drop 6) ∧
    busyReply.writes = busyReply.writes.take 6 ++ .cell 0x00FF 7 :: busyReply.writes.drop 7 ∧
    (∀ u, .cell 0x00FF u ∉ busyReply.writes.drop 7) := by
  refine ⟨calls_busy, eq_next (by decide), rfl, ?_, by decide, rfl, ?_, rfl, ?_, rfl, ?_, rfl, ?_, rfl, ?_, rfl, ?_⟩
  all_goals simp [busyReply]

/-- A handler without an outcome, and one that always has one. -/
theorem witness_SyscallThatNeverReturnsIsStuck :
    findHandler (calling 7 .user .never).handlers ((calling 7 .user .never).reg 1) = some ⟨7, .user, .never⟩ ∧
    (calling 7 .user .never).cpl.level ≤ Ring.user.level ∧ HandlerBody.never.outcome (calling 7 .user .never) = none ∧
    findHandler (calling 7 .user spSum).handlers ((calling 7 .user spSum).reg 1) = some ⟨7, .user, spSum⟩ ∧
    (calling 7 .user spSum).cpl.level ≤ Ring.user.level ∧ spSum.outcome (calling 7 .user spSum) ≠ none := by decide

theorem witness_HaltCompletes :
    (running 0xFFFF 1 0).Live ∧ region (running 0xFFFF 1 0).pc = .code ∧
    (running 0xFFFF 1 0).mem.readCell (running 0xFFFF 1 0).pc = 0xFFFF :=
  ⟨⟨by decide, by decide⟩, by decide, by decide⟩

/-- A live state whose next instruction is Illegal. -/
def atIllegal : State := (State.construct [] [0xE]).withFetchWord 16 0xE100

theorem witness_IllegalCompletes :
    atIllegal.Live ∧ region atIllegal.pc = .code ∧ atIllegal.nextInstr = .illegal 0xE100 :=
  ⟨⟨by decide, by decide⟩, by decide, by decide⟩

/-- A state faulted by scenario SC4. -/
def faulted : State := got (step (running 0xB120 2 0xFFFE))

theorem witness_StepKeepsInvariant :
    (calling 9 .kernel busy).Inv ∧
    step (calling 9 .kernel busy) = .next (got (step (calling 9 .kernel busy))) ∧
    faulted.Inv ∧ step faulted = .next (got (step faulted)) := by
  refine ⟨⟨by decide, by decide, by decide, fun f h => ?_⟩, eq_next (by decide),
    ⟨by decide, by decide, by decide, fun f h => ?_⟩, eq_next (by decide)⟩
  · have hn : (calling 9 .kernel busy).fault = none := by decide
    rw [hn] at h; cases h
  · have hf : faulted.fault = some (.protectionFault 0xFFFE .user 0x0000) := by decide
    obtain rfl := Option.some.inj (h.symm.trans hf)
    exact ⟨by decide, .inl (by decide)⟩

/-- A fault of the execute stage, and one of the fetch. -/
theorem witness_FaultingStepChangesOnlyPc :
    (running 0xB120 2 0xFFFE).Live ∧ step (running 0xB120 2 0xFFFE) = .next faulted ∧
    faulted.fault = some (.protectionFault 0xFFFE .user 0x0000) ∧
    (machineAt 0x0100 [] []).Live ∧ step (machineAt 0x0100 [] []) = .next (got (step (machineAt 0x0100 [] []))) ∧
    (got (step (machineAt 0x0100 [] []))).fault = some (.protectionFault 0x0100 .user 0x0100) :=
  ⟨⟨by decide, by decide⟩, eq_next (by decide), by decide, ⟨by decide, by decide⟩, eq_next (by decide), by decide⟩

/-- A fault after a good fetch, and one of the fetch. -/
theorem witness_FaultCarriesInstructionAddress :
    (running 0xB120 2 0xFFFE).Live ∧ step (running 0xB120 2 0xFFFE) = .next faulted ∧
    faulted.fault = some (.protectionFault 0xFFFE .user 0x0000) ∧ region (running 0xB120 2 0xFFFE).pc = .code ∧
    (machineAt 0x0100 [] []).Live ∧ step (machineAt 0x0100 [] []) = .next (got (step (machineAt 0x0100 [] []))) ∧
    (got (step (machineAt 0x0100 [] []))).fault = some (.protectionFault 0x0100 .user 0x0100) ∧
    region (machineAt 0x0100 [] []).pc ≠ .code :=
  ⟨⟨by decide, by decide⟩, eq_next (by decide), by decide, by decide, ⟨by decide, by decide⟩, eq_next (by decide),
    by decide, by decide⟩

/-- One live state for each arm: JMP, BEQ, BNE, SYSCALL, another; each step completes. -/
theorem witness_PcAfterCompletedStep :
    (∀ w ∈ [0xD0FF, 0xE1FF, 0xE2FF, 0xF1FF, 0xF2FF, 0xC105, 0xFFFF], (running w 1 3).halted = false ∧
      (running w 1 3).fault = none ∧ after (step (running w 1 3)) (fun t => t.fault == none) = true) ∧
    (calling 7 .user spSum).Live ∧ (calling 7 .user spSum).nextInstr = .syscall 0 ∧
    step (calling 7 .user spSum) = .next (got (step (calling 7 .user spSum))) ∧
    (got (step (calling 7 .user spSum))).fault = none ∧
    (calling 7 .user spSum).advancePc.Calls ⟨7, .user, spSum⟩ ⟨[.sp 4], 0⟩ ∧
    (∀ v : Word, HandlerWrite.pc v ∉ [HandlerWrite.sp (4 : Word)]) :=
  ⟨by decide, ⟨by decide, by decide⟩, by decide, eq_next (by decide), by decide,
    calls_intro (by decide) (by decide) (by decide), by simp⟩

theorem witness_CplChangesOnlyInHandlers :
    step (calling 1 .user busy) = .next (got (step (calling 1 .user busy))) ∧
    (got (step (calling 1 .user busy))).cpl ≠ (calling 1 .user busy).cpl :=
  ⟨eq_next (by decide), by decide⟩

theorem witness_SpAndLrChangeOnlyInHandlers :
    step (calling 1 .user busy) = .next (got (step (calling 1 .user busy))) ∧
    (got (step (calling 1 .user busy))).sp ≠ (calling 1 .user busy).sp ∧
    (got (step (calling 1 .user busy))).lr ≠ (calling 1 .user busy).lr :=
  ⟨eq_next (by decide), by decide, by decide⟩

/-- The last code cell and the first reserved one, written by a handler of ring 0 that keeps its duties. -/
theorem witness_ProtectedCellsChangeOnlyInHandlers :
    step (calling 9 .kernel busy) = .next (got (step (calling 9 .kernel busy))) ∧
    region 0x00FF = .code ∧ region 0xFFFE = .reserved ∧
    (got (step (calling 9 .kernel busy))).mem.readCell 0x00FF ≠ (calling 9 .kernel busy).mem.readCell 0x00FF ∧
    (got (step (calling 9 .kernel busy))).mem.readCell 0xFFFE ≠ (calling 9 .kernel busy).mem.readCell 0xFFFE ∧
    busyReply.KeepsDuties .kernel := by
  refine ⟨eq_next (by decide), by decide, by decide, by decide, by decide, fun _ _ _ _ => rfl, fun v h => ?_⟩
  have hv : v = 0x8000 := by simpa [busyReply] using h
  subst hv; decide

theorem witness_DutifulHandlersKeepSpEven :
    (∀ e r, (calling 9 .kernel busy).advancePc.Calls e r → r.KeepsDuties e.minRing) ∧
    (calling 9 .kernel busy).sp.getLsbD 0 = false ∧
    step (calling 9 .kernel busy) = .next (got (step (calling 9 .kernel busy))) := by
  refine ⟨fun e r h => ?_, by decide, eq_next (by decide)⟩
  obtain ⟨rfl, rfl⟩ := calls_unique steps_call_busy h
  exact witness_ProtectedCellsChangeOnlyInHandlers.2.2.2.2.2

/-- A LOAD, and a SYSCALL whose handler writes SP only. -/
theorem witness_FlagsWrittenOnlyByAlu :
    exec (.load 4 1 0) (running 0 1 0x0100) = .next (got (exec (.load 4 1 0) (running 0 1 0x0100))) ∧
    writesFlags (.load 4 1 0) = false ∧
    (∀ p e r, (.load 4 1 0 : Instr) = .syscall p → (running 0 1 0x0100).Calls e r →
      ∀ f, .flags f ∉ r.writes) ∧
    exec (.syscall 0) (calling 7 .user spSum) = .next (got (exec (.syscall 0) (calling 7 .user spSum))) ∧
    writesFlags (.syscall 0) = false ∧
    (∀ p e r, (.syscall 0 : Instr) = .syscall p → (calling 7 .user spSum).Calls e r →
      ∀ f, .flags f ∉ r.writes) := by
  refine ⟨eq_next (by decide), by decide, fun p e r h => (by cases h), eq_next (by decide), by decide, fun p e r _ h => ?_⟩
  have hc : (calling 7 .user spSum).Calls ⟨7, .user, spSum⟩ ⟨[.sp 4], 0⟩ :=
    calls_intro (by decide) (by decide) (by decide)
  obtain ⟨rfl, rfl⟩ := calls_unique hc h
  simp

/-- A handler that does not read the flags, and an instruction that is no SYSCALL. -/
theorem witness_FlagsNeverRead :
    (∀ p e, (.syscall 0 : Instr) = .syscall p →
      findHandler (calling 7 .user spSum).handlers ((calling 7 .user spSum).reg 1) = some e →
      e.body.outcome ((calling 7 .user spSum).setFlags (zncv 1 1 1 1)) = e.body.outcome (calling 7 .user spSum)) ∧
    (∀ p e, (.halt : Instr) = .syscall p → findHandler p1.handlers (p1.reg 1) = some e →
      e.body.outcome (p1.setFlags (zncv 1 1 1 1)) = e.body.outcome p1) := by
  refine ⟨fun p e _ h => ?_, fun p e h => by cases h⟩
  have hf : findHandler (calling 7 .user spSum).handlers ((calling 7 .user spSum).reg 1) = some ⟨7, .user, spSum⟩ := by
    decide
  obtain rfl := Option.some.inj (h.symm.trans hf)
  decide

theorem witness_CplReadOnlyByChecksAndGateway :
    ∀ i ∈ [Instr.halt, .add 3 1 2, .jmp 0 0xFF, .illegal 0xE100], readsCpl i = false := by decide

/-- A step that completes and a step that faults. -/
theorem witness_CompletedStepsCount :
    p1.Live ∧ step p1 = .next (got (step p1)) ∧ (got (step p1)).fault = none ∧
    (running 0xB120 2 0xFFFE).Live ∧ step (running 0xB120 2 0xFFFE) = .next faulted ∧ faulted.fault ≠ none :=
  ⟨⟨by decide, by decide⟩, eq_next (by decide), by decide, ⟨by decide, by decide⟩, eq_next (by decide), by decide⟩

theorem witness_OnlyHaltHaltsAndParametersStay :
    step (running 0xFFFF 1 0) = .next (got (step (running 0xFFFF 1 0))) ∧
    (got (step (running 0xFFFF 1 0))).halted ≠ (running 0xFFFF 1 0).halted :=
  ⟨eq_next (by decide), by decide⟩

/-- The two halves: a bound used up, and a run that halts within it. -/
theorem witness_RunsCompose :
    (run 3 p1).status = .cycleBudgetExhausted 3 3 ∧ (∀ pc c, (run 4 p1).status ≠ .cycleBudgetExhausted pc c) := by
  have h : (run 4 p1).status = .halted := by decide
  refine ⟨by decide, fun pc c e => ?_⟩
  rw [h] at e; cases e

/-- A program that ends at the last code cell: its first and last word, and the cells beside it. -/
theorem witness_LoadProgramPlacesWords :
    (∃ t, State.reset.loadProgram [0xC105, 0xFFFF] 0x00FE = some t) ∧ 0 < [(0xC105 : Word), 0xFFFF].length ∧
    1 < [(0xC105 : Word), 0xFFFF].length ∧ (0x00FD : Word).toNat < (0x00FE : Word).toNat ∧
    (0x00FE : Word).toNat + [(0xC105 : Word), 0xFFFF].length ≤ (0x0100 : Word).toNat :=
  ⟨Option.isSome_iff_exists.mp (by decide), by decide, by decide, by decide, by decide⟩

/-- An image that ends at the last cell before the reserved region. -/
theorem witness_LoadImageIsLittleEndian :
    (∃ t, State.reset.loadImage [0x34, 0x12, 0x78, 0x56] 0xFFFC = some t) ∧
    2 * 1 + 1 < [(0x34 : Byte), 0x12, 0x78, 0x56].length ∧ (0xFFFB : Word).toNat < (0xFFFC : Word).toNat ∧
    (0xFFFC : Word).toNat + [(0x34 : Byte), 0x12, 0x78, 0x56].length / 2 ≤ (0xFFFE : Word).toNat :=
  ⟨Option.isSome_iff_exists.mp (by decide), by decide, by decide, by decide⟩

/-- A slice at the bottom of memory, the last cell alone, and an empty slice. -/
theorem witness_RestoreGivesSnapshotBack :
    (∃ p, p1.snapshot 0x0000 4 = some p) ∧ (∃ p, p1.snapshot 0xFFFF 1 = some p) ∧ (∃ p, p1.snapshot 0x0200 0 = some p) :=
  ⟨Option.isSome_iff_exists.mp (by decide), Option.isSome_iff_exists.mp (by decide),
    Option.isSome_iff_exists.mp (by decide)⟩

end Sys2Proof.Tests.Slice0
end

section
/-! The register file: what reset leaves in it and what a register write does to the whole state (10_state.md R21,
R22). -/

namespace Sys2Proof.Machine

/-! ### Reset -/

/-- The fifteen stored registers are cleared by reset, and R0 is the constant 0. -/
@[simp] theorem State.reg_reset (i : Reg) : State.reset.reg i = 0 := by
  by_cases hi : i = 0
  · rw [hi]
    exact State.reg_zero State.reset
  · have hlt := regIndex_lt i hi
    simp [State.reg, State.reset, Vector.getD, hlt]

/-! ### The frame of a register write -/

theorem setReg_sameRegsExcept (s : State) (i : Reg) (v : Word) : SameRegsExcept i s (s.setReg i v) :=
  fun _ hne => State.reg_setReg_of_ne s hne v

theorem setReg_sameBytes (s : State) (i : Reg) (v : Word) : SameBytes s (s.setReg i v) := by
  intro k
  rw [State.setReg_mem]

theorem setReg_sameSystem (s : State) (i : Reg) (v : Word) : SameSystem s (s.setReg i v) where
  sp := State.setReg_sp s i v
  lr := State.setReg_lr s i v
  cpl := State.setReg_cpl s i v
  cycles := State.setReg_cycles s i v
  halted := State.setReg_halted s i v
  fault := State.setReg_fault s i v
  handlers := State.setReg_handlers s i v
  illegalSet := State.setReg_illegalSet s i v
  hostCalls := State.setReg_hostCalls s i v

/-- A register other than R0 reads what was last written to it (10_state.md R21). -/
theorem State.reg_setReg_of_ne_zero (s : State) {i : Reg} (hi : i ≠ 0) (v : Word) : (s.setReg i v).reg i = v := by
  rw [State.reg_setReg_self, if_neg hi]

/-- Settles O7: the reset file, the hard-wired R0, the read after a write, and the write's frame. -/
theorem registerFileReadsAndWrites : Obligations.RegisterFileReadsAndWrites := by
  refine ⟨State.reg_reset, fun s i v => ⟨State.reg_zero s, State.setReg_zero s v, ?_, ?_, ?_, ?_, ?_, ?_⟩⟩
  · exact fun hi => State.reg_setReg_of_ne_zero s hi v
  · exact setReg_sameRegsExcept s i v
  · exact State.setReg_pc s i v
  · exact State.setReg_flags s i v
  · exact setReg_sameBytes s i v
  · exact setReg_sameSystem s i v

end Sys2Proof.Machine
end

section
/-! The regions of memory and the three checked accesses (20_memory.md R62, R66 to R68). -/

namespace Sys2Proof.Machine

/-! ### The region lookup -/

/-- Settles O9: each bound on the word is that bound on the number it stands for. -/
theorem regionLookup : Obligations.RegionLookup := by
  intro a
  have hcode : a ≤ (0x00FF : Word) ↔ a.toNat ≤ 0x00FF := BitVec.le_def
  have hdata : a ≤ (0xEFFF : Word) ↔ a.toNat ≤ 0xEFFF := BitVec.le_def
  have hstack : a ≤ (0xFFFD : Word) ↔ a.toNat ≤ 0xFFFD := BitVec.le_def
  simp only [region, hcode, hdata, hstack]

/-! ### The frame of a cell write -/

theorem setCell_sameBytesExcept (s : State) (a v : Word) : SameBytesExcept a s (s.setCell a v) := by
  intro k hlo hhi
  rw [State.setCell_mem, Memory.readByte_writeCell, if_neg hhi, if_neg hlo]

theorem setCell_sameSystem (s : State) (a v : Word) : SameSystem s (s.setCell a v) where
  sp := State.setCell_sp s a v
  lr := State.setCell_lr s a v
  cpl := State.setCell_cpl s a v
  cycles := State.setCell_cycles s a v
  halted := State.setCell_halted s a v
  fault := State.setCell_fault s a v
  handlers := State.setCell_handlers s a v
  illegalSet := State.setCell_illegalSet s a v
  hostCalls := State.setCell_hostCalls s a v

/-! ### What an allowed access gives -/

theorem memRead_of_check {s : State} {a : Word} (h : check a .read s.cpl = .ok ()) :
    memRead a s = .ok (s.mem.readCell a) :=
  memRead_ok_iff.mpr ⟨(check_ok_iff a .read s.cpl).mp h, rfl⟩

theorem memFetch_of_check {s : State} {a : Word} (h : check a .execute s.cpl = .ok ()) :
    memFetch a s = .ok (s.mem.readCell a) :=
  memFetch_ok_iff.mpr ⟨(check_ok_iff a .execute s.cpl).mp h, rfl⟩

theorem memWrite_of_check {s : State} {a : Word} (h : check a .write s.cpl = .ok ()) (v : Word) :
    memWrite a v s = .ok (s.setCell a v) :=
  memWrite_ok_iff.mpr ⟨(check_ok_iff a .write s.cpl).mp h, rfl⟩

/-- The fetch stage reads the word at PC by MemFetch (20_memory.md R68). -/
theorem fetch_of_memFetch {s : State} {w : Word} (h : memFetch s.pc s = .ok w) : fetch s = .ok w := by
  rw [fetch, h]

/-- Settles O11: allowed accesses by the check's lemmas and the frame of a cell write, refused ones by the descriptor. -/
theorem checkedAccesses : Obligations.CheckedAccesses := by
  intro s a v
  refine ⟨memRead_of_check, fun _ => memRead_error_iff.mpr, memFetch_of_check, fun _ => memFetch_error_iff.mpr,
    fun _ => fetch_of_memFetch, fun h => ⟨s.setCell a v, memWrite_of_check h v, ?_, ?_, ?_, ?_, ?_, ?_⟩,
    fun _ => memWrite_error_iff.mpr⟩
  · exact Memory.readCell_writeCell_self s.mem a v
  · exact setCell_sameBytesExcept s a v
  · exact State.reg_setCell s a v
  · exact State.setCell_pc s a v
  · exact State.setCell_flags s a v
  · exact setCell_sameSystem s a v

end Sys2Proof.Machine
end

section
/-! The decoder's branches, and the one encoding HALT takes from BNE (30_encoding.md R109, R116). -/

namespace Sys2Proof

/-! ### The decoder's branches -/

@[simp] theorem decode_haltWord (illegalSet : List Nibble) : decode illegalSet haltWord = .halt := by
  rw [decode, if_pos rfl]

/-- The illegal nibbles come before the opcode map (30_encoding.md R109). -/
theorem decode_of_mem_illegalSet {illegalSet : List Nibble} {w : Word} (hw : w ≠ haltWord)
    (hop : opField w ∈ illegalSet) : decode illegalSet w = .illegal w := by
  rw [decode, if_neg hw, if_pos hop]

/-- Every word but HALT's is dispatched on its high nibble, which the record's opcode field keeps (30_encoding.md R109,
R120). -/
theorem decode_opcode (illegalSet : List Nibble) {w : Word} (hw : w ≠ haltWord) :
    (decode illegalSet w).opcode = .nibble (opField w) := by
  by_cases hmem : opField w ∈ illegalSet
  · rw [decode_of_mem_illegalSet hw hmem]
    rfl
  · rcases op_cases (opField w) with h | h | h | h | h | h | h | h | h | h | h | h | h | h | h | h
    all_goals
      rw [decode, if_neg hw, if_neg hmem, h]
      rfl

theorem decode_of_opField_bne {illegalSet : List Nibble} {w : Word} (hw : w ≠ haltWord)
    (hop : opField w = Opcode.bne) (hset : Opcode.bne ∉ illegalSet) :
    decode illegalSet w = .bne (rdField w) (low8Field w) := by
  rw [decode, if_neg hw, hop, if_neg hset]
  rfl

/-! ### The words of HALT and of BNE -/

theorem decode_eq_halt_iff {illegalSet : List Nibble} {w : Word} : decode illegalSet w = .halt ↔ w = haltWord := by
  constructor
  · intro h
    by_contra hw
    have hop := decode_opcode illegalSet hw
    rw [h] at hop
    cases hop
  · rintro rfl
    exact decode_haltWord illegalSet

/-- The word of a BNE is HALT's for RF and -1 only (30_encoding.md R116). -/
theorem encode_bne_eq_haltWord_iff {rd : Reg} {off : Byte} :
    encode (.bne rd off) = haltWord ↔ rd = 0xF ∧ off = 0xFF := by
  constructor
  · intro h
    have hrd := congrArg rdField h
    have hoff := congrArg low8Field h
    rw [encode, rdField_layoutI] at hrd
    rw [encode, low8Field_layoutI] at hoff
    exact ⟨hrd, hoff⟩
  · rintro ⟨rfl, rfl⟩
    rfl

/-- A word decodes to a BNE exactly when it is that BNE's encoding, unless HALT or an illegal nibble takes it first
(30_encoding.md R109). -/
theorem decode_eq_bne_iff {illegalSet : List Nibble} {w : Word} {rd : Reg} {off : Byte} :
    decode illegalSet w = .bne rd off ↔ w = encode (.bne rd off) ∧ w ≠ haltWord ∧ Opcode.bne ∉ illegalSet := by
  constructor
  · intro h
    have hw : w ≠ haltWord := by
      rintro rfl
      rw [decode_haltWord] at h
      cases h
    have hop : Opcode.bne = opField w := by
      have := decode_opcode illegalSet hw
      rw [h] at this
      exact OpcodeField.nibble.inj this
    have hset : Opcode.bne ∉ illegalSet := by
      intro hmem
      rw [decode_of_mem_illegalSet hw (hop ▸ hmem)] at h
      cases h
    rw [decode_of_opField_bne hw hop.symm hset] at h
    obtain ⟨rfl, rfl⟩ := Instr.bne.inj h
    exact ⟨by rw [encode, hop, layoutI_fields], hw, hset⟩
  · rintro ⟨rfl, hw, hset⟩
    rw [decode_of_opField_bne hw (opField_encode rfl) hset, encode, rdField_layoutI, low8Field_layoutI]

/-- Settles O5: BNE RF, -1 has HALT's word, which is decoded first; every other BNE has a word of its own. -/
theorem haltShadowsOneBranch : Obligations.HaltShadowsOneBranch := by
  have hshadow : encode (.bne 0xF 0xFF) = haltWord := encode_bne_eq_haltWord_iff.mpr ⟨rfl, rfl⟩
  refine ⟨hshadow, fun _ _ => decode_eq_halt_iff, fun _ _ h => ?_, fun rd off hother => ?_⟩
  · obtain ⟨hword, hne, -⟩ := decode_eq_bne_iff.mp h
    exact hne (hword.trans hshadow)
  · exact decode_eq_bne_iff.mpr ⟨rfl, mt encode_bne_eq_haltWord_iff.mp hother, List.not_mem_nil⟩

end Sys2Proof
end

section
/-! The execution cycle: what a step of a live machine can do, what a faulting one leaves unchanged, and the PC a
completed one leaves (40_execution_cycle.md R142, R150, R152). -/

namespace Sys2Proof.Machine

/-! ### A step of a live machine -/

/-- A fetch fails only outside the code region (40_execution_cycle.md R142). -/
theorem region_ne_code_of_fetch_error {s : State} {f : FatalFault} (h : fetch s = .error f) : region s.pc ≠ .code := by
  intro hc
  rw [fetch_ok_iff.mpr ⟨hc, rfl⟩] at h
  cases h

/-- Inversion of `step` on a live machine: a fetch fault, or an effect of the next instruction and the end of the
step. -/
theorem step_cases_of_live {s t : State} (hl : s.Live) (h : step s = .next t) :
    (region s.pc ≠ .code ∧ ∃ f, t = s.latch f) ∨
    (region s.pc = .code ∧ ∃ u, ExecEffect s.nextInstr s.advancePc u ∧ t = u.retire) := by
  obtain ⟨hhalted, hfault⟩ := hl
  rcases step_cases h with ⟨hended, -⟩ | ⟨-, -, f, hfetch, ht⟩ | ⟨-, -, hc, u, hexec, ht⟩
  · simp [hhalted, hfault] at hended
  · exact .inl ⟨region_ne_code_of_fetch_error hfetch, f, ht⟩
  · exact .inr ⟨hc, u, exec_effect hexec, ht⟩

/-! ### A step that faults -/

/-- The execute stage either latches a fault and does nothing else, or leaves the latch alone. -/
theorem ExecEffect.latch_or_fault_eq {i : Instr} {s u : State} (h : ExecEffect i s u) :
    (∃ f, u = s.latch f) ∨ u.fault = s.fault := by
  cases h with
  | violation | illegal | unknownSyscall | privilegeViolation => exact .inl ⟨_, rfl⟩
  | handler p hi e hfound hr r ho =>
    obtain ⟨-, -, hfault, -⟩ := applyReply_untouched s.countCall r
    exact .inr hfault
  | _ => exact .inr (by simp)

/-- Settles O41: a fetch fault only latches; an execute stage that latches does nothing else after the PC's advance,
and then the end of the step counts no cycle. -/
theorem faultingStepChangesOnlyPc : Obligations.FaultingStepChangesOnlyPc := by
  intro s t f hl hstep hf
  rcases step_cases_of_live hl hstep with ⟨hc, g, rfl⟩ | ⟨hc, u, heffect, rfl⟩
  · obtain rfl : g = f := Option.some.inj hf
    exact ⟨rfl, .inl ⟨hc, rfl⟩⟩
  · rw [State.retire_fault] at hf
    rw [State.retire_of_some u hf]
    rcases heffect.latch_or_fault_eq with ⟨g, rfl⟩ | hkept
    · obtain rfl : g = f := Option.some.inj hf
      exact ⟨rfl, .inr ⟨hc, rfl⟩⟩
    · rw [hkept, State.advancePc_fault, hl.2] at hf
      cases hf

/-! ### PC after a completed step -/

theorem applyWrite_pc_of_ne {w : HandlerWrite Word} (h : ∀ v, w ≠ .pc v) (s : State) : (applyWrite s w).pc = s.pc := by
  cases w with
  | pc v => exact absurd rfl (h v)
  | _ => simp [applyWrite]

/-- A handler that does not write PC leaves it (45_system.md R224). -/
theorem applyReply_pc_of_not_mem {r : HandlerReply} (h : ∀ v, .pc v ∉ r.writes) (s : State) :
    (applyReply s r).pc = s.pc := by
  rw [applyReply, State.setReg_pc]
  refine applyWrites_induction (P := fun u => u.pc = s.pc) r.writes rfl fun u w hw hu => ?_
  exact (applyWrite_pc_of_ne (fun v hv => h v (hv ▸ hw)) u).trans hu

/-- Settles O43: the step completed, so its effect is one of those that latch nothing, and only a taken transfer and
a handler that writes PC change the PC already advanced by one. -/
theorem pcAfterCompletedStep : Obligations.PcAfterCompletedStep := by
  intro s t hl hstep hf
  rcases step_cases_of_live hl hstep with ⟨-, f, rfl⟩ | ⟨-, u, heffect, rfl⟩
  · cases hf
  rw [State.retire_fault] at hf
  rw [State.retire_pc]
  generalize s.nextInstr = i at heffect ⊢
  cases heffect with
  | alu hi rd r c v =>
    cases i with
    | syscall | jmp | beq | bne => cases hi
    | _ => exact State.setReg_pc s.advancePc rd r
  | load rd rs off hi h =>
    subst hi
    exact State.setReg_pc s.advancePc rd _
  | store rd rs off hi h =>
    subst hi
    rfl
  | taken rd off hi =>
    rcases hi with rfl | ⟨rfl, hz⟩ | ⟨rfl, hz⟩
    · rfl
    · exact (if_pos hz).symm
    · exact (if_neg hz).symm
  | fallThrough rd off hi =>
    rcases hi with ⟨rfl, hz⟩ | ⟨rfl, hz⟩
    · exact (if_neg hz).symm
    · exact (if_pos hz).symm
  | halt hi =>
    subst hi
    rfl
  | violation | illegal | unknownSyscall | privilegeViolation => cases hf
  | handler p hi e hfound hr r ho =>
    subst hi
    intro e' r' hcalls hpc
    obtain rfl : e' = e := Option.some.inj (hcalls.known.symm.trans hfound)
    obtain rfl : r' = r := Option.some.inj (hcalls.outcome.symm.trans ho)
    exact applyReply_pc_of_not_mem hpc s.advancePc.countCall

end Sys2Proof.Machine
end

section
/-! The R-type ADD: its word, the result and flags as numbers, and the whole effect of an ALU writeback
(41_alu_rtype.md R160 to R162). -/

namespace Sys2Proof

/-! ### The word of ADD -/

/-- HALT's word has the high nibble of BNE (30_encoding.md R106). -/
theorem ne_haltWord_of_opField_ne_bne {w : Word} (hop : opField w ≠ Opcode.bne) : w ≠ haltWord := by
  rintro rfl
  exact hop rfl

theorem decode_of_opField_add {illegalSet : List Nibble} {w : Word} (hop : opField w = Opcode.add)
    (hset : Opcode.add ∉ illegalSet) :
    decode illegalSet w = .add (rdField w) (rsField w) (rtField w) := by
  have hbne : opField w ≠ Opcode.bne := hop ▸ by decide
  rw [decode, if_neg (ne_haltWord_of_opField_ne_bne hbne), hop, if_neg hset]
  rfl

theorem decode_layoutR_add {illegalSet : List Nibble} (hset : Opcode.add ∉ illegalSet) (rd rs rt : Reg) :
    decode illegalSet (layoutR Opcode.add rd rs rt) = .add rd rs rt := by
  rw [decode_of_opField_add (Laws.OpcodeNibble.opField_layoutR _ rd rs rt) hset, rdField_layoutR, rsField_layoutR,
    rtField_layoutR]

end Sys2Proof

namespace Sys2Proof.Machine

/-! ### The flags as conditions on numbers -/

/-- Z and N of a result read off its value (41_alu_rtype.md R161). -/
theorem resultFlags_eq (r : Word) (c v : Bool) :
    resultFlags r c v = ⟨decide (r.toNat = 0), decide (32768 ≤ r.toNat), c, v⟩ := by
  have hz : (r == 0) = decide (r.toNat = 0) := by
    rw [beq_eq_decide]
    exact decide_eq_decide.mpr BitVec.toNat_inj.symm
  rw [resultFlags, hz, BitVec.msb_eq_decide]

theorem outOfSignedRange_eq (exact : Int) :
    outOfSignedRange exact = decide (¬ (-32768 ≤ exact ∧ exact ≤ 32767)) :=
  decide_eq_decide.mpr (by omega)

/-! ### The effect of an ALU writeback -/

theorem SameSystem.setFlags {s t : State} (h : SameSystem s t) (f : Flags) : SameSystem s (t.setFlags f) where
  sp := h.sp
  lr := h.lr
  cpl := h.cpl
  cycles := h.cycles
  halted := h.halted
  fault := h.fault
  handlers := h.handlers
  illegalSet := h.illegalSet
  hostCalls := h.hostCalls

theorem setReg_setFlags_aluEffect (rd : Reg) (r : Word) (f : Flags) (s : State) :
    AluEffect rd r f s ((s.setReg rd r).setFlags f) where
  result := State.reg_setReg_self s rd r
  flags := State.setFlags_flags (s.setReg rd r) f
  regs := setReg_sameRegsExcept s rd r
  pc := State.setReg_pc s rd r
  bytes := setReg_sameBytes s rd r
  system := (setReg_sameSystem s rd r).setFlags f

/-- The writeback completes with its result, Z and N of that result, the C and V it is given, and nothing else changed
(41_alu_rtype.md R160, R161). -/
theorem aluWrite_completes (rd : Reg) (r : Word) (c v : Bool) (s : State) :
    ∃ t, aluWrite rd r c v s = .next t ∧
      AluEffect rd r ⟨decide (r.toNat = 0), decide (32768 ≤ r.toNat), c, v⟩ s t := by
  refine ⟨_, aluWrite_next.mpr rfl, ?_⟩
  rw [resultFlags_eq]
  exact setReg_setFlags_aluEffect rd r _ s

/-! ### ADD -/

/-- ADD is the ALU writeback of the sum modulo 65536, with C and V read off the exact unsigned and signed sums
(41_alu_rtype.md R162). -/
theorem exec_add_eq_aluWrite (rd rs rt : Reg) (s : State) :
    exec (.add rd rs rt) s =
      aluWrite rd (BitVec.ofNat 16 (((s.reg rs).toNat + (s.reg rt).toNat) % 65536))
        (decide (65536 ≤ (s.reg rs).toNat + (s.reg rt).toNat))
        (decide (¬ (-32768 ≤ (s.reg rs).toInt + (s.reg rt).toInt ∧ (s.reg rs).toInt + (s.reg rt).toInt ≤ 32767))) s := by
  have hsum : s.reg rs + s.reg rt = BitVec.ofNat 16 (((s.reg rs).toNat + (s.reg rt).toNat) % 65536) := by
    apply BitVec.eq_of_toNat_eq
    simp [BitVec.toNat_add]
  rw [exec, execAdd, hsum, addCarry, addOverflow, outOfSignedRange_eq]

/-- Settles O16: the word is ADD's layout, and the instruction is an ALU writeback of the sum. -/
theorem addCompletes : Obligations.AddCompletes := by
  intro illegalSet rd rs rt s
  refine ⟨fun hset => decode_layoutR_add hset rd rs rt, ?_⟩
  rw [exec_add_eq_aluWrite]
  exact aluWrite_completes rd _ _ _ s

end Sys2Proof.Machine
end

section
/-! The immediate ADDI: its word, the immediate as a number that is never negative, and the sum's writeback
(42_immediate.md R190, R192). -/

namespace Sys2Proof

/-! ### The word of ADDI -/

theorem decode_of_opField_addi {illegalSet : List Nibble} {w : Word} (hop : opField w = Opcode.addi)
    (hset : Opcode.addi ∉ illegalSet) : decode illegalSet w = .addi (rdField w) (low8Field w) := by
  have hbne : opField w ≠ Opcode.bne := hop ▸ by decide
  rw [decode, if_neg (ne_haltWord_of_opField_ne_bne hbne), hop, if_neg hset]
  rfl

theorem decode_layoutI_addi {illegalSet : List Nibble} (hset : Opcode.addi ∉ illegalSet) (rd : Reg) (imm : Byte) :
    decode illegalSet (layoutI Opcode.addi rd imm) = .addi rd imm := by
  rw [decode_of_opField_addi (Laws.OpcodeNibble.opField_layoutI _ rd imm) hset, rdField_layoutI, low8Field_layoutI]

end Sys2Proof

namespace Sys2Proof.Machine

/-! ### The immediate as a number -/

@[simp] theorem immOperand_toNat (imm : Byte) : (immOperand imm).toNat = imm.toNat :=
  BitVec.toNat_setWidth_of_le (by decide)

/-- An immediate is at most 255, so the operand is never negative (42_immediate.md R190). -/
@[simp] theorem immOperand_toInt (imm : Byte) : (immOperand imm).toInt = imm.toNat := by
  have hsmall : 2 * (immOperand imm).toNat < 2 ^ 16 := by
    have := imm.isLt
    rw [immOperand_toNat]
    omega
  rw [BitVec.toInt_eq_toNat_of_lt hsmall, immOperand_toNat]

/-! ### ADDI -/

theorem add_immOperand (a : Word) (imm : Byte) :
    a + immOperand imm = BitVec.ofNat 16 ((a.toNat + imm.toNat) % 65536) := by
  apply BitVec.eq_of_toNat_eq
  simp [BitVec.toNat_add]

theorem addCarry_immOperand (a : Word) (imm : Byte) :
    addCarry a (immOperand imm) = decide (65536 ≤ a.toNat + imm.toNat) := by
  rw [addCarry, immOperand_toNat]

/-- Adding an immediate cannot go below -32768, so only the upper bound is tested (42_immediate.md R190). -/
theorem addOverflow_immOperand (a : Word) (imm : Byte) :
    addOverflow a (immOperand imm) = decide (32767 < a.toInt + imm.toNat) := by
  have hlow : -32768 ≤ a.toInt := BitVec.le_toInt a
  rw [addOverflow, immOperand_toInt, outOfSignedRange]
  exact decide_eq_decide.mpr (by omega)

/-- ADDI is the ALU writeback of the sum modulo 65536, with C its carry and V the one-sided test (42_immediate.md
R190). -/
theorem exec_addi_eq_aluWrite (rd : Reg) (imm : Byte) (s : State) :
    exec (.addi rd imm) s =
      aluWrite rd (BitVec.ofNat 16 (((s.reg rd).toNat + imm.toNat) % 65536))
        (decide (65536 ≤ (s.reg rd).toNat + imm.toNat)) (decide (32767 < (s.reg rd).toInt + imm.toNat)) s := by
  rw [exec, execAddi, add_immOperand, addCarry_immOperand, addOverflow_immOperand]

/-- Settles O20: the word is ADDI's layout, and the instruction is an ALU writeback of the sum. -/
theorem addiCompletes : Obligations.AddiCompletes := by
  intro illegalSet rd imm s
  refine ⟨fun hset => decode_layoutI_addi hset rd imm, ?_⟩
  rw [exec_addi_eq_aluWrite]
  exact aluWrite_completes rd _ _ _ s

end Sys2Proof.Machine
end

section
/-! The control transfers JMP, BEQ and BNE: their words, the target as a sum of numbers, and the one field a transfer
writes (44_control.md R210 to R213). -/

namespace Sys2Proof

/-! ### The words of the transfers -/

/-- HALT's word has the high nibble of BNE, so no other layout gives it (30_encoding.md R106). -/
theorem layoutI_ne_haltWord {op : Nibble} (hop : op ≠ Opcode.bne) (rd : Reg) (off : Byte) :
    layoutI op rd off ≠ haltWord := by
  apply ne_haltWord_of_opField_ne_bne
  rwa [Laws.OpcodeNibble.opField_layoutI]

theorem decode_layoutI_jmp {illegalSet : List Nibble} (hset : Opcode.jmp ∉ illegalSet) (rd : Reg) (off : Byte) :
    decode illegalSet (layoutI Opcode.jmp rd off) = .jmp rd off := by
  rw [decode, if_neg (layoutI_ne_haltWord (by decide) rd off), Laws.OpcodeNibble.opField_layoutI, if_neg hset,
    rdField_layoutI, low8Field_layoutI]
  rfl

theorem decode_layoutI_beq {illegalSet : List Nibble} (hset : Opcode.beq ∉ illegalSet) (rd : Reg) (off : Byte) :
    decode illegalSet (layoutI Opcode.beq rd off) = .beq rd off := by
  rw [decode, if_neg (layoutI_ne_haltWord (by decide) rd off), Laws.OpcodeNibble.opField_layoutI, if_neg hset,
    rdField_layoutI, low8Field_layoutI]
  rfl

/-- The layout of BNE is BNE's word but for RF and -1, where it is HALT's (30_encoding.md R116). -/
theorem decode_layoutI_bne {illegalSet : List Nibble} (hset : Opcode.bne ∉ illegalSet) (rd : Reg) (off : Byte) :
    decode illegalSet (layoutI Opcode.bne rd off) = if rd = 0xF ∧ off = 0xFF then .halt else .bne rd off := by
  split_ifs with h
  · exact decode_eq_halt_iff.mpr (encode_bne_eq_haltWord_iff.mpr h)
  · exact decode_eq_bne_iff.mpr ⟨rfl, mt encode_bne_eq_haltWord_iff.mp h, hset⟩

end Sys2Proof

namespace Sys2Proof.Machine

/-! ### The target and the transfer -/

/-- The target is PC plus the signed offset, wrapped once to 16 bits (44_control.md R210). -/
theorem branchTarget_eq_ofInt (off : Byte) (s : State) :
    branchTarget off s = BitVec.ofInt 16 (s.pc.toNat + off.toInt) := by
  rw [BitVec.ofInt_add, BitVec.ofInt_natCast, BitVec.ofNat_toNat, BitVec.setWidth_eq]
  rfl

/-- A transfer writes PC and nothing else, taken or not (44_control.md R210). -/
theorem branchIf_eq_next (taken : Bool) (off : Byte) (s : State) :
    branchIf taken off s =
      .next { s with pc := if taken then BitVec.ofInt 16 (s.pc.toNat + off.toInt) else s.pc } := by
  rw [← branchTarget_eq_ofInt, branchIf_next]
  cases taken <;> rfl

/-! ### JMP, BEQ, BNE -/

/-- Settles O29: the word is JMP's layout, and the instruction is the transfer that is always taken. -/
theorem jumpCompletes : Obligations.JumpCompletes := by
  intro illegalSet rd off s
  exact ⟨fun hset => decode_layoutI_jmp hset rd off, branchIf_eq_next true off s⟩

/-- Settles O30: the word is BEQ's layout, and the instruction is the transfer taken when the register is zero. -/
theorem branchIfZeroCompletes : Obligations.BranchIfZeroCompletes := by
  intro illegalSet rd off s
  refine ⟨fun hset => decode_layoutI_beq hset rd off, ?_⟩
  rw [exec, execBeq, branchIf_eq_next]
  simp only [beq_iff_eq]

/-- Settles O31: the word is BNE's layout, which HALT shadows once, and the instruction is the transfer taken when the
register is not zero. -/
theorem branchIfNotZeroCompletes : Obligations.BranchIfNotZeroCompletes := by
  intro illegalSet rd off s
  refine ⟨fun hset => decode_layoutI_bne hset rd off, ?_⟩
  rw [exec, execBne, branchIf_eq_next]
  simp only [bne_iff_ne]

end Sys2Proof.Machine
end

section
/-! The faults the execute stage raises without a memory access: the step of an instruction that only latches a fault,
and UnknownSyscall, PrivilegeViolation and IllegalInstruction as such steps (60_exceptions.md R243, R246, R247). -/

namespace Sys2Proof.Machine

/-! ### The step of an instruction that faults -/

/-- While an instruction executes, PC minus one is the address it was fetched from (40_execution_cycle.md R143). -/
@[simp] theorem State.pcOfInstr_advancePc (s : State) : s.advancePc.pcOfInstr = s.pc :=
  BitVec.add_sub_cancel s.pc 1

/-- In the code region a live machine executes its next instruction with PC advanced (40_execution_cycle.md R140). -/
theorem step_of_live {s : State} (hl : s.Live) (hc : region s.pc = .code) :
    step s = finish (exec s.nextInstr s.advancePc) := by
  obtain ⟨hhalted, hfault⟩ := hl
  have hfetch : fetch s = .ok (s.mem.readCell s.pc) := fetch_ok_iff.mpr ⟨hc, rfl⟩
  simp only [step, cycle, hhalted, hfault, hfetch]
  rfl

/-- An instruction that only latches a fault counts no cycle, so its step advances PC, latches, and changes nothing else
(40_execution_cycle.md R150). -/
theorem step_of_exec_latch {s : State} {f : FatalFault} (hl : s.Live) (hc : region s.pc = .code)
    (hexec : exec s.nextInstr s.advancePc = .next (s.advancePc.latch f)) :
    step s = .next { s with pc := s.pc + 1, fault := some f } := by
  rw [step_of_live hl hc, hexec, finish, State.retire_of_some _ (State.latch_fault _ f)]
  rfl

/-! ### UnknownSyscall, PrivilegeViolation, IllegalInstruction -/

/-- Settles O32: with no entry for the number the gateway latches UnknownSyscall, and that is all the step does. -/
theorem syscallOfUnknownNumber : Obligations.SyscallOfUnknownNumber := by
  intro s p hl hc hi hnone
  have hfind : findHandler s.handlers (s.reg 1) = none := findHandler_none.mpr hnone
  apply step_of_exec_latch hl hc
  rw [hi, exec, execSyscall_unknown (s := s.advancePc) hfind, State.pcOfInstr_advancePc, State.reg_advancePc]

/-- Settles O33: the ring filter latches PrivilegeViolation before any handler runs, and that is all the step does. -/
theorem syscallRefusedByRing : Obligations.SyscallRefusedByRing := by
  intro s p e hl hc hi hfind hring
  apply step_of_exec_latch hl hc
  rw [hi, exec, execSyscall_refused (s := s.advancePc) hfind hring, State.pcOfInstr_advancePc, State.reg_advancePc,
    State.advancePc_cpl]

/-- Settles O38: Illegal latches IllegalInstruction with PC minus one, the word's own address, and that is all the step
does. -/
theorem illegalCompletes : Obligations.IllegalCompletes := by
  intro s w
  refine ⟨rfl, fun hl hc hi => step_of_exec_latch hl hc ?_⟩
  rw [hi, exec, execIllegal, raise, State.pcOfInstr_advancePc]

end Sys2Proof.Machine
end

section
/-! Decode and encode undo each other: what the decoder makes of the word of a record, what it makes of a word at all,
and which records it returns (30_encoding.md R109 to R119). -/

namespace Sys2Proof

/-! ### The word of a record -/

/-- A record other than HALT is well formed exactly when its word is not HALT's (30_encoding.md R116). -/
theorem wellFormed_iff_encode_ne_haltWord {i : Instr} (hi : i ≠ .halt) : i.wellFormed = true ↔ encode i ≠ haltWord := by
  cases i with
  | halt => exact absurd rfl hi
  | bne rd off =>
    rw [Ne, encode_bne_eq_haltWord_iff, not_and_or]
    simp [Instr.wellFormed]
  | illegal w => simp [Instr.wellFormed, haltWord, encode]
  | _ =>
    refine iff_of_true rfl (ne_haltWord_of_opField_ne_bne ?_)
    rw [opField_encode rfl]
    decide

/-- The image of the decoder, for the Illegal records (30_encoding.md R113). -/
theorem decodable_illegal_iff {illegalSet : List Nibble} {w : Word} :
    (Instr.illegal w).decodable illegalSet = true ↔ w ≠ haltWord ∧ opField w ∈ illegalSet := by
  simp [Instr.decodable, Instr.wellFormed, haltWord]

/-- The image of the decoder, for the rows of the opcode table (30_encoding.md R109). -/
theorem decodable_row_iff {illegalSet : List Nibble} {i : Instr} {op : Nibble} (hrow : ∀ w, i ≠ .illegal w)
    (hop : i.opcode = .nibble op) :
    i.decodable illegalSet = true ↔ i.wellFormed = true ∧ op ∉ illegalSet := by
  have heq : i.decodable illegalSet = (i.wellFormed && !i.opcode.isIllegal illegalSet) := by
    rw [Instr.decodable]
    exact hrow
  simp [heq, hop, OpcodeField.isIllegal]

/-- The word of a row of the opcode table decodes to that row when its nibble is legal: the decoder reads each field
where the layout put it (30_encoding.md R107, R109). -/
theorem decode_encode_of_row {illegalSet : List Nibble} {i : Instr} {op : Nibble} (hrow : ∀ w, i ≠ .illegal w)
    (hop : i.opcode = .nibble op) (hwf : i.wellFormed = true) (hset : op ∉ illegalSet) :
    decode illegalSet (encode i) = i := by
  have hhalt : i ≠ .halt := by
    rintro rfl
    cases hop
  have hw : encode i ≠ haltWord := (wellFormed_iff_encode_ne_haltWord hhalt).mp hwf
  rw [decode, if_neg hw, opField_encode hop, if_neg hset]
  cases i with
  | halt => cases hop
  | illegal w => exact absurd rfl (hrow w)
  | syscall payload =>
    cases hop
    simp only [encode, payloadField_layoutS]
    rfl
  | load | store =>
    cases hop
    simp only [encode, rdField_layoutR, rsField_layoutR, off4Field_layoutR]
    rfl
  | addi | loadi | jmp | beq | bne =>
    cases hop
    simp only [encode, rdField_layoutI, low8Field_layoutI]
    rfl
  | _ =>
    cases hop
    simp only [encode, rdField_layoutR, rsField_layoutR, rtField_layoutR]
    rfl

/-- Settles O2: HALT and the illegal words come first, and every other record is a row with a legal nibble. -/
theorem decodeOfEncode : Obligations.DecodeOfEncode := by
  intro illegalSet i hi
  cases i with
  | halt => exact decode_haltWord illegalSet
  | illegal w =>
    obtain ⟨hw, hset⟩ := decodable_illegal_iff.mp hi
    exact decode_of_mem_illegalSet hw hset
  | _ =>
    obtain ⟨hwf, hset⟩ := (decodable_row_iff (by nofun) rfl).mp hi
    exact decode_encode_of_row (by nofun) rfl hwf hset

/-! ### The record of a word -/

/-- A word that is not HALT's and whose nibble is legal decodes to a row of the table, and the row's layout is the word
(30_encoding.md R112). -/
theorem decode_row {illegalSet : List Nibble} {w : Word} (hw : w ≠ haltWord) (hset : opField w ∉ illegalSet) :
    (∀ v, decode illegalSet w ≠ .illegal v) ∧ encode (decode illegalSet w) = w := by
  have hR : ∀ {op}, opField w = op → layoutR op (rdField w) (rsField w) (rtField w) = w := by
    rintro _ rfl
    exact layoutR_fields w
  have hI : ∀ {op}, opField w = op → layoutI op (rdField w) (low8Field w) = w := by
    rintro _ rfl
    exact layoutI_fields w
  have hS : ∀ {op}, opField w = op → layoutS op (payloadField w) = w := by
    rintro _ rfl
    exact layoutS_fields w
  rw [decode, if_neg hw, if_neg hset]
  rcases op_cases (opField w) with h | h | h | h | h | h | h | h | h | h | h | h | h | h | h | h
  all_goals rw [h]
  exacts [⟨nofun, hS h⟩, ⟨nofun, hR h⟩, ⟨nofun, hI h⟩, ⟨nofun, hR h⟩, ⟨nofun, hR h⟩, ⟨nofun, hR h⟩, ⟨nofun, hR h⟩,
    ⟨nofun, hR h⟩, ⟨nofun, hR h⟩, ⟨nofun, hR h⟩, ⟨nofun, hR h⟩, ⟨nofun, hR h⟩, ⟨nofun, hI h⟩, ⟨nofun, hI h⟩,
    ⟨nofun, hI h⟩, ⟨nofun, hI h⟩]

/-- Settles O3: HALT and the illegal words are carried as they are, and every other word is the layout of its row. -/
theorem encodeOfDecode : Obligations.EncodeOfDecode := by
  intro illegalSet w
  by_cases hw : w = haltWord
  · rw [hw, decode_haltWord]
    rfl
  by_cases hset : opField w ∈ illegalSet
  · rw [decode_of_mem_illegalSet hw hset]
    rfl
  · exact (decode_row hw hset).2

/-- Settles O6: HALT's word and the rows of the table are never Illegal, and an illegal nibble always is. -/
theorem illegalByNibbleAlone : Obligations.IllegalByNibbleAlone := by
  intro illegalSet w v
  constructor
  · intro h
    have hw : w ≠ haltWord := by
      rintro rfl
      rw [decode_haltWord] at h
      cases h
    have hset : opField w ∈ illegalSet := by
      by_contra hlegal
      exact (decode_row hw hlegal).1 v h
    rw [decode_of_mem_illegalSet hw hset] at h
    exact ⟨(Instr.illegal.inj h).symm, hw, hset⟩
  · rintro ⟨rfl, hw, hset⟩
    exact decode_of_mem_illegalSet hw hset

/-- Settles O4: the record's word is the word decoded, so it is well formed, and its nibble is that word's. -/
theorem decodedRecordsAreDecodable : Obligations.DecodedRecordsAreDecodable := by
  intro illegalSet w
  by_cases hw : w = haltWord
  · rw [hw, decode_haltWord]
    rfl
  by_cases hset : opField w ∈ illegalSet
  · rw [decode_of_mem_illegalSet hw hset]
    exact decodable_illegal_iff.mpr ⟨hw, hset⟩
  · obtain ⟨hrow, hword⟩ := decode_row hw hset
    have hwf := (wellFormed_iff_encode_ne_haltWord (mt decode_eq_halt_iff.mp hw)).mpr (by rwa [hword])
    exact (decodable_row_iff hrow (decode_opcode illegalSet hw)).mpr ⟨hwf, hset⟩

/-- Settles O1: each printed word decodes to its row by computation (95_test_vectors.md 1.1, 2.1). -/
theorem printedWordsDecode : Obligations.PrintedWordsDecode := by
  unfold Obligations.PrintedWordsDecode
  decide

end Sys2Proof
end

section
/-! The cycle around the execute stage: a step with the fetch allowed, with the fetch refused, and of an ended machine
(40_execution_cycle.md R140 to R151), and what a fault records (60_exceptions.md R241 to R252). -/

namespace Sys2Proof.Machine

/-! ### The access check, refused -/

/-- Which fault a refused access is (20_memory.md R65, R69). -/
theorem check_of_not_mem {a : Word} {kind : AccessKind} (h : kind ∉ (region a).accessFlags) (ring : Ring) :
    check a kind ring =
      .error ⟨if region a = .reserved ∧ ring = .kernel then .invalidAccess else .protectionFault, a, ring⟩ := by
  cases hc : check a kind ring with
  | ok => exact absurd ((check_ok_iff a kind ring).mp hc) h
  | error d =>
    obtain ⟨-, haddr, hring, hkind⟩ := check_error hc
    obtain ⟨k, a', r'⟩ := d
    cases haddr
    cases hring
    cases k with
    | invalidAccess => rw [if_pos (hkind.mp rfl)]
    | protectionFault => rw [if_neg (mt hkind.mpr (by nofun))]

/-- The core's fault for a refused access (60_exceptions.md R244, R245). -/
theorem check_withPc_of_not_mem {a : Word} {kind : AccessKind} (h : kind ∉ (region a).accessFlags) (ring : Ring)
    {d : Violation} (hd : check a kind ring = .error d) (pc : Word) :
    d.withPc pc = if region a = .reserved ∧ ring = .kernel then .invalidAccess a ring pc
      else .protectionFault a ring pc := by
  rw [check_of_not_mem h ring] at hd
  cases hd
  unfold Violation.withPc
  split_ifs <;> rfl

/-! ### The three ways of a step -/

/-- Settles O15: the step tests the two ends first. -/
theorem stepOfEndedMachineIsInert : Obligations.StepOfEndedMachineIsInert := by
  intro s hended
  unfold step cycle
  cases hh : s.halted with
  | true => rfl
  | false =>
    cases hf : s.fault with
    | some f => rfl
    | none => simp [hh, hf] at hended

theorem step_of_fetch_error {s : State} {f : FatalFault} (hl : s.Live) (hfetch : fetch s = .error f) :
    step s = .next (s.latch f) := by
  obtain ⟨hhalted, hfault⟩ := hl
  simp only [step, cycle, hhalted, hfault, hfetch]
  rfl

/-- Settles O14: outside the code region the check refuses to execute, and its descriptor is latched with PC as it
is. -/
theorem fetchOutsideCodeFaults : Obligations.FetchOutsideCodeFaults := by
  intro s
  refine ⟨fun d hd => fetch_error_iff.mpr ⟨d, memFetch_error_iff.mp hd, rfl⟩, fun hl hc => ?_⟩
  have hexec : AccessKind.execute ∉ (region s.pc).accessFlags := by
    cases hr : region s.pc with
    | code => exact absurd hr hc
    | data | stack | reserved => decide
  have hcheck := check_of_not_mem hexec s.cpl
  rw [step_of_fetch_error hl (fetch_error_iff.mpr ⟨_, hcheck, rfl⟩), check_withPc_of_not_mem hexec s.cpl hcheck]
  rfl

theorem retire_eq_ite (u : State) :
    u.retire = if u.fault = none then { u with cycles := u.cycles + 1 } else u := by
  by_cases hf : u.fault = none
  · rw [if_pos hf, State.retire_of_none u hf]
    rfl
  · obtain ⟨f, hsome⟩ := Option.ne_none_iff_exists'.mp hf
    rw [if_neg hf, State.retire_of_some u hsome]

/-- Settles O13: in the code region the step is the execute stage on the advanced state, and the end of a step counts
unless a fault was latched. -/
theorem stepRunsDecodedInstruction : Obligations.StepRunsDecodedInstruction := by
  intro s i hl hc hi
  rw [step_of_live hl hc, State.nextInstr, hi, State.advancePc, State.setPc]
  cases exec i { s with pc := s.pc + 1 } with
  | next u => exact congrArg Host.Outcome.next (retire_eq_ite u)
  | fault r => rfl
  | refused r => rfl

/-- Settles O37: HALT's word is decoded before any nibble is tested, and its step latches no fault, so it counts. -/
theorem haltCompletes : Obligations.HaltCompletes := by
  intro s
  refine ⟨rfl, fun hl hc hw => ?_⟩
  have hi : s.nextInstr = .halt := decode_eq_halt_iff.mpr hw
  have hexec : exec .halt s.advancePc = .next s.advancePc.setHalted := rfl
  rw [step_of_live hl hc, hi, hexec, finish, State.retire_of_none s.advancePc.setHalted hl.2]
  rfl

/-! ### What the execute stage keeps -/

/-- No instruction counts a cycle or changes the parameters (40_execution_cycle.md R151, 00_scope.md R8, R10). -/
theorem ExecEffect.untouched {i : Instr} {s u : State} (h : ExecEffect i s u) :
    u.cycles = s.cycles ∧ u.handlers = s.handlers ∧ u.illegalSet = s.illegalSet := by
  cases h with
  | handler p hi e hfound hr r ho =>
    obtain ⟨hcycles, -, -, hhandlers, hset, -⟩ := applyReply_untouched s.countCall r
    exact ⟨hcycles, hhandlers, hset⟩
  | _ => simp

/-- Only HALT sets the halted flag (45_system.md R228). -/
theorem ExecEffect.halt_or_halted_eq {i : Instr} {s u : State} (h : ExecEffect i s u) :
    (i = .halt ∧ u = s.setHalted) ∨ u.halted = s.halted := by
  cases h with
  | halt hi => exact .inl ⟨hi, rfl⟩
  | handler p hi e hfound hr r ho =>
    obtain ⟨-, hhalted, -⟩ := applyReply_untouched s.countCall r
    exact .inr hhalted
  | _ => exact .inr (by simp)

theorem ExecEffect.mem_wf {i : Instr} {s u : State} (h : ExecEffect i s u) (hs : s.mem.wf) : u.mem.wf := by
  cases h with
  | store rd rs off hi hw => exact Memory.writeCell_wf hs _ _
  | handler p hi e hfound hr r ho =>
    rw [applyReply, State.setReg_mem]
    exact applyWrites_mem_wf (s := s.countCall) hs r.writes
  | _ => simpa using hs

/-! ### What a fault records -/

/-- What a fault says of its state does not depend on the latch. -/
theorem describes_latch_iff {f g : FatalFault} {s : State} : f.Describes (s.latch g) ↔ f.Describes s := by
  cases f <;> rfl

/-- A refused access is described by memory's descriptor with the PC added, whether the access is the instruction's own
or its fetch (60_exceptions.md R244, R245). -/
theorem describes_of_check_error {s : State} {a pc : Word} {kind : AccessKind} {d : Violation}
    (h : check a kind s.cpl = .error d) (hpc : s.pc = pc + 1 ∨ (s.pc = pc ∧ a = pc)) :
    (d.withPc pc).Describes s := by
  obtain ⟨hmem, -⟩ := check_error h
  rw [check_withPc_of_not_mem hmem s.cpl h]
  split_ifs with hk
  · exact ⟨hk.2, hk.2, hk.1, hpc⟩
  · exact ⟨rfl, hpc⟩

/-- The execute stage latches nothing, or only a fault that carries the instruction's address and describes the state
(60_exceptions.md R242 to R247, R252). -/
theorem ExecEffect.latch_describes {i : Instr} {s u : State} (h : ExecEffect i s u) :
    (∃ f, u = s.latch f ∧ f.pc = s.pcOfInstr ∧ f.Describes s) ∨ u.fault = s.fault := by
  have hpc : s.pc = s.pcOfInstr + 1 := (BitVec.sub_add_cancel s.pc 1).symm
  cases h with
  | violation rd rs off kind d hi hd =>
    exact .inl ⟨_, rfl, Violation.withPc_pc d _, describes_of_check_error hd (.inl hpc)⟩
  | illegal w hi => exact .inl ⟨_, rfl, rfl, hpc⟩
  | unknownSyscall p hi hnone => exact .inl ⟨_, rfl, rfl, hpc, rfl, hnone⟩
  | privilegeViolation p hi e hfound hr => exact .inl ⟨_, rfl, rfl, hpc, rfl, rfl, e, hfound, hr⟩
  | handler p hi e hfound hr r ho =>
    obtain ⟨-, -, hfault, -⟩ := applyReply_untouched s.countCall r
    exact .inr hfault
  | _ => exact .inr (by simp)

/-! ### The invariant -/

theorem State.Inv.latch {s : State} (hs : s.Inv) (hhalted : s.halted = false) {f : FatalFault} (hf : f.Describes s) :
    (s.latch f).Inv where
  mem := hs.mem
  table := hs.table
  ending h := by
    rw [State.latch_halted, hhalted] at h
    cases h
  latched g hg := by
    cases hg
    exact describes_latch_iff.mpr hf

/-- With no fault latched the invariant is about memory and the table alone. -/
theorem State.Inv.of_fault_none {s : State} (hmem : s.mem.wf) (htable : (s.handlers.map HandlerEntry.num).Nodup)
    (hfault : s.fault = none) : s.Inv where
  mem := hmem
  table := htable
  ending _ := hfault
  latched f hf := by
    rw [hfault] at hf
    cases hf

/-- The execute stage of a live machine keeps the invariant (10_state.md R43). -/
theorem ExecEffect.inv {i : Instr} {s u : State} (h : ExecEffect i s u) (hs : s.Inv) (hl : s.Live) : u.Inv := by
  obtain ⟨hhalted, hfault⟩ := hl
  rcases h.latch_describes with ⟨f, rfl, -, hf⟩ | hkept
  · exact hs.latch hhalted hf
  · obtain ⟨-, hhandlers, -⟩ := h.untouched
    exact .of_fault_none (h.mem_wf hs.mem) (hhandlers ▸ hs.table) (hkept.trans hfault)

theorem State.Inv.retire {u : State} (hu : u.Inv) : u.retire.Inv := by
  cases hf : u.fault with
  | some f => rwa [State.retire_of_some u hf]
  | none =>
    rw [State.retire_of_none u hf]
    exact .of_fault_none hu.mem hu.table hf

/-- Settles O39: an inert step changes nothing, a refused fetch latches a fault that describes the state, and an executed
instruction keeps the invariant of the state with PC advanced. -/
theorem stepKeepsInvariant : Obligations.StepKeepsInvariant := by
  intro s t hs hstep
  rcases step_cases hstep with ⟨-, rfl⟩ | ⟨hhalted, -, f, hfetch, rfl⟩ | ⟨hhalted, hfault, -, u, hexec, rfl⟩
  · exact hs
  · obtain ⟨d, hd, rfl⟩ := fetch_error_iff.mp hfetch
    exact hs.latch hhalted (describes_of_check_error hd (.inr ⟨rfl, rfl⟩))
  · have hadvanced : s.advancePc.Inv := .of_fault_none hs.mem hs.table hfault
    exact ((exec_effect hexec).inv hadvanced ⟨hhalted, hfault⟩).retire

/-- Settles O40: reset has canonical memory, an empty table, and no fault. -/
theorem resetMeetsInvariant : Obligations.ResetMeetsInvariant :=
  State.Inv.of_fault_none State.reset_mem_wf List.nodup_nil rfl

/-! ### The step's own bookkeeping -/

/-- Settles O42: a refused fetch carries PC and leaves it, and the execute stage carries PC minus one, which a faulting
step leaves as it found it. -/
theorem faultCarriesInstructionAddress : Obligations.FaultCarriesInstructionAddress := by
  intro s t f hl hstep hf
  rcases step_cases hstep with ⟨hended, -⟩ | ⟨-, -, g, hfetch, rfl⟩ | ⟨-, -, hc, u, hexec, rfl⟩
  · obtain ⟨hhalted, hfault⟩ := hl
    simp [hhalted, hfault] at hended
  · obtain rfl : g = f := Option.some.inj hf
    have hpc : g.pc = s.pc := by
      obtain ⟨d, -, rfl⟩ := fetch_error_iff.mp hfetch
      exact Violation.withPc_pc d s.pc
    exact ⟨hpc, fun hc => absurd hc (region_ne_code_of_fetch_error hfetch), fun _ => hpc⟩
  · rw [State.retire_fault] at hf
    rcases (exec_effect hexec).latch_describes with ⟨g, rfl, hpc, -⟩ | hkept
    · obtain rfl : g = f := Option.some.inj hf
      rw [State.retire_pc]
      exact ⟨hpc.trans s.pcOfInstr_advancePc, fun _ => hpc, fun hne => absurd hc hne⟩
    · rw [hkept, State.advancePc_fault, hl.2] at hf
      cases hf

/-- Settles O51: only the end of a step counts, and not when a fault was latched. -/
theorem completedStepsCount : Obligations.CompletedStepsCount := by
  intro s t hl hstep
  rcases step_cases_of_live hl hstep with ⟨-, f, rfl⟩ | ⟨-, u, heffect, rfl⟩
  · rfl
  · obtain ⟨hcycles, -⟩ := heffect.untouched
    rw [State.retire_cycles, State.retire_fault, hcycles, State.advancePc_cycles]

/-- Settles O53: an executed instruction keeps the parameters, and the halted flag unless it is HALT. -/
theorem onlyHaltHaltsAndParametersStay : Obligations.OnlyHaltHaltsAndParametersStay := by
  intro s t hstep
  rcases step_cases hstep with ⟨-, rfl⟩ | ⟨-, -, f, -, rfl⟩ | ⟨-, -, -, u, hexec, rfl⟩
  · exact ⟨fun hne => absurd rfl hne, rfl, rfl⟩
  · exact ⟨fun hne => absurd rfl hne, rfl, rfl⟩
  · obtain ⟨-, hhandlers, hset⟩ := (exec_effect hexec).untouched
    rw [State.retire_halted, State.retire_handlers, State.retire_illegalSet]
    refine ⟨fun hne => ?_, hhandlers, hset⟩
    rcases (exec_effect hexec).halt_or_halted_eq with ⟨hi, rfl⟩ | hkept
    · exact ⟨hi, rfl⟩
    · exact absurd hkept hne

end Sys2Proof.Machine
end

section
/-! The writes of a handler: what a list of writes leaves unchanged, what its last write leaves behind, and the SYSCALL
that applies them (45_system.md R222 to R226). -/

namespace Sys2Proof.Machine

/-! ### What a list of writes leaves unchanged -/

/-- What no single write of a list changes, the list does not change. -/
theorem applyWrites_frame {α : Type} (get : State → α) {ws : List (HandlerWrite Word)}
    (h : ∀ w ∈ ws, ∀ u, get (applyWrite u w) = get u) (s : State) : get (applyWrites s ws) = get s :=
  applyWrites_induction (P := fun u => get u = get s) ws rfl fun u w hw hu => (h w hw u).trans hu

section
variable {ws : List (HandlerWrite Word)} (s : State)

theorem applyWrites_reg_of_not_mem {i : Reg} (h : ∀ v, .reg i v ∉ ws) : (applyWrites s ws).reg i = s.reg i := by
  refine applyWrites_frame (State.reg · i) (fun w hw u => ?_) s
  cases w with
  | reg j v => exact State.reg_setReg_of_ne u (by rintro rfl; exact h v hw) v
  | _ => rfl

theorem applyWrites_pc_of_not_mem (h : ∀ v, .pc v ∉ ws) : (applyWrites s ws).pc = s.pc :=
  applyWrites_frame State.pc (fun _ hw u => applyWrite_pc_of_ne (fun v hv => h v (hv ▸ hw)) u) s

theorem applyWrites_sp_of_not_mem (h : ∀ v, .sp v ∉ ws) : (applyWrites s ws).sp = s.sp := by
  refine applyWrites_frame State.sp (fun w hw u => ?_) s
  cases w with
  | sp v => exact absurd hw (h v)
  | _ => simp [applyWrite]

theorem applyWrites_lr_of_not_mem (h : ∀ v, .lr v ∉ ws) : (applyWrites s ws).lr = s.lr := by
  refine applyWrites_frame State.lr (fun w hw u => ?_) s
  cases w with
  | lr v => exact absurd hw (h v)
  | _ => simp [applyWrite]

theorem applyWrites_flags_of_not_mem (h : ∀ f, .flags f ∉ ws) : (applyWrites s ws).flags = s.flags := by
  refine applyWrites_frame State.flags (fun w hw u => ?_) s
  cases w with
  | flags f => exact absurd hw (h f)
  | _ => simp [applyWrite]

theorem applyWrites_cpl_of_not_mem (h : ∀ q, .ring q ∉ ws) : (applyWrites s ws).cpl = s.cpl := by
  refine applyWrites_frame State.cpl (fun w hw u => ?_) s
  cases w with
  | ring q => exact absurd hw (h q)
  | _ => simp [applyWrite]

theorem applyWrites_readByte_of_not_mem {k : Nat} (h : ∀ a v, .cell a v ∈ ws → k ≠ loByte a ∧ k ≠ hiByte a) :
    (applyWrites s ws).mem.readByte k = s.mem.readByte k := by
  refine applyWrites_frame (·.mem.readByte k) (fun w hw u => ?_) s
  cases w with
  | cell a v =>
    obtain ⟨hlo, hhi⟩ := h a v hw
    exact setCell_sameBytesExcept u a v k hlo hhi
  | _ => simp [applyWrite]

theorem applyWrites_readCell_of_not_mem {a : Word} (h : ∀ v, .cell a v ∉ ws) :
    (applyWrites s ws).mem.readCell a = s.mem.readCell a := by
  refine applyWrites_frame (·.mem.readCell a) (fun w hw u => ?_) s
  cases w with
  | cell b v => exact Memory.readCell_writeCell_of_ne u.mem (by rintro rfl; exact h v hw) v
  | _ => simp [applyWrite]

/-- The state a write of a list is made in has the writes before it, and the writes after it follow. -/
theorem applyWrites_split {before after : List (HandlerWrite Word)} {w : HandlerWrite Word}
    (h : ws = before ++ w :: after) :
    applyWrites s ws = applyWrites (applyWrite (applyWrites s before) w) after := by
  rw [h, applyWrites_append, applyWrites]

end

/-! ### SYSCALL of a handler that is called -/

/-- A call the gateway lets through whose handler has an outcome applies it (45_system.md R224). -/
theorem exec_syscall_of_calls {s : State} {e : HandlerEntry} {r : HandlerReply} (h : s.Calls e r) (p : BitVec 12) :
    exec (.syscall p) s = .next (applyReply s.countCall r) := by
  rw [exec, execSyscall_called h.known (Nat.not_lt.mpr h.allowed), callHandler_returns h.outcome]

/-- The return value goes into R1 over anything the handler put there (45_system.md R225). -/
theorem applyReply_reg_one (s : State) (r : HandlerReply) : (applyReply s r).reg 1 = r.ret :=
  State.reg_setReg_of_ne_zero _ (by decide) r.ret

/-- Every other register is as the writes leave it. -/
theorem applyReply_reg_of_ne (s : State) (r : HandlerReply) {i : Reg} (hi : i ≠ 1) :
    (applyReply s r).reg i = (applyWrites s r.writes).reg i :=
  State.reg_setReg_of_ne _ hi r.ret

@[simp] theorem applyReply_pc (s : State) (r : HandlerReply) : (applyReply s r).pc = (applyWrites s r.writes).pc :=
  State.setReg_pc _ 1 r.ret
@[simp] theorem applyReply_sp (s : State) (r : HandlerReply) : (applyReply s r).sp = (applyWrites s r.writes).sp :=
  State.setReg_sp _ 1 r.ret
@[simp] theorem applyReply_lr (s : State) (r : HandlerReply) : (applyReply s r).lr = (applyWrites s r.writes).lr :=
  State.setReg_lr _ 1 r.ret
@[simp] theorem applyReply_flags (s : State) (r : HandlerReply) :
    (applyReply s r).flags = (applyWrites s r.writes).flags :=
  State.setReg_flags _ 1 r.ret
@[simp] theorem applyReply_cpl (s : State) (r : HandlerReply) : (applyReply s r).cpl = (applyWrites s r.writes).cpl :=
  State.setReg_cpl _ 1 r.ret
@[simp] theorem applyReply_mem (s : State) (r : HandlerReply) : (applyReply s r).mem = (applyWrites s r.writes).mem :=
  State.setReg_mem _ 1 r.ret

/-- Settles O34: the call applies the reply, whose writes are the only changes besides R1 and the count. -/
theorem syscallCompletes : Obligations.SyscallCompletes := by
  intro s p e r hcalls
  obtain ⟨hcycles, hhalted, hfault, hhandlers, hset, hcount⟩ := applyReply_untouched s.countCall r
  refine ⟨applyReply s.countCall r, exec_syscall_of_calls hcalls p, applyReply_reg_one _ r, fun i hi h => ?_, ?_, ?_, ?_,
    ?_, ?_, fun k h => ?_, hcycles, hhalted, hfault, hhandlers, hset, hcount⟩
  · exact (applyReply_reg_of_ne _ r hi).trans (applyWrites_reg_of_not_mem _ h)
  · exact applyReply_pc_of_not_mem (s := s.countCall)
  · simpa using applyWrites_sp_of_not_mem s.countCall
  · simpa using applyWrites_lr_of_not_mem s.countCall
  · simpa using applyWrites_flags_of_not_mem s.countCall
  · simpa using applyWrites_cpl_of_not_mem s.countCall
  · rw [applyReply_mem, applyWrites_readByte_of_not_mem _ h, State.countCall_mem]

/-- Settles O35: the writes after the last write of a thing leave that thing alone. -/
theorem handlerWritesTakeEffect : Obligations.HandlerWritesTakeEffect := by
  intro s t p e r hcalls hexec before after
  rw [exec_syscall_of_calls hcalls p] at hexec
  cases hexec
  refine ⟨fun i v hw hlast hi => ?_, fun v hw hlast => ?_, fun v hw hlast => ?_, fun v hw hlast => ?_,
    fun f hw hlast => ?_, fun q hw hlast => ?_, fun a v hw hlast => ?_⟩
  · rw [applyReply_reg_of_ne _ r hi, applyWrites_split _ hw, applyWrites_reg_of_not_mem _ hlast]
    exact State.reg_setReg_self _ i v
  · rw [applyReply_pc, applyWrites_split _ hw, applyWrites_pc_of_not_mem _ hlast]
    rfl
  · rw [applyReply_sp, applyWrites_split _ hw, applyWrites_sp_of_not_mem _ hlast]
    rfl
  · rw [applyReply_lr, applyWrites_split _ hw, applyWrites_lr_of_not_mem _ hlast]
    rfl
  · rw [applyReply_flags, applyWrites_split _ hw, applyWrites_flags_of_not_mem _ hlast]
    rfl
  · rw [applyReply_cpl, applyWrites_split _ hw, applyWrites_cpl_of_not_mem _ hlast]
    rfl
  · rw [applyReply_mem, applyWrites_split _ hw, applyWrites_readCell_of_not_mem _ hlast]
    exact Memory.readCell_writeCell_self _ a v

/-- Settles O36: the gateway lets the call through, so the outcome of the handler's relation decides. -/
theorem syscallThatNeverReturnsIsStuck : Obligations.SyscallThatNeverReturnsIsStuck := by
  intro s p e hfound hallowed
  have hexec : exec (.syscall p) s = callHandler e (s.reg 1) s :=
    execSyscall_called hfound (Nat.not_lt.mpr hallowed)
  cases ho : e.body.outcome s with
  | none => simp [hexec, callHandler_stuck ho]
  | some r => simp [hexec, callHandler_returns ho]

end Sys2Proof.Machine
end

section
/-! What changes inside a handler only, and when a step has no next state: CPL, SP, LR, the protected cells and the
flags (10_state.md R27 to R33, R43; 45_system.md R224, R230). -/

namespace Sys2Proof.Machine

/-! ### A step that calls a handler, and every other step -/

/-- What only a handler changes: SP, LR, CPL, and the cells of the code and reserved regions. -/
structure SameProtected (s t : State) : Prop where
  sp : t.sp = s.sp
  lr : t.lr = s.lr
  cpl : t.cpl = s.cpl
  cells : ∀ a, region a = .code ∨ region a = .reserved → t.mem.readCell a = s.mem.readCell a

theorem not_write_of_protected {a : Word} (h : region a = .code ∨ region a = .reserved) :
    .write ∉ (region a).accessFlags := by
  rcases h with h | h <;> rw [h] <;> decide

/-- The execute stage calls a handler, or changes nothing that is protected: a STORE passes the access check
(20_memory.md R61). -/
theorem ExecEffect.calls_or_sameProtected {i : Instr} {s u : State} (h : ExecEffect i s u) :
    (∃ p e r, i = .syscall p ∧ s.Calls e r ∧ u = applyReply s.countCall r) ∨ SameProtected s u := by
  cases h with
  | handler p hi e hfound hr r ho => exact .inl ⟨p, e, r, hi, ⟨hfound, Nat.not_lt.mp hr, ho⟩, rfl⟩
  | store rd rs off hi hw =>
    refine .inr ⟨rfl, rfl, rfl, fun a ha => Memory.readCell_writeCell_of_ne s.mem ?_ _⟩
    rintro rfl
    exact not_write_of_protected ha hw
  | _ => exact .inr ⟨by simp, by simp, by simp, by simp⟩

/-- A step calls a handler, or changes nothing that is protected. -/
theorem step_calls_or_sameProtected {s t : State} (h : step s = .next t) :
    (s.Live ∧ ∃ p e r, s.nextInstr = .syscall p ∧ s.advancePc.Calls e r ∧
      t = (applyReply s.advancePc.countCall r).retire) ∨ SameProtected s t := by
  rcases step_cases h with ⟨-, rfl⟩ | ⟨-, -, f, -, rfl⟩ | ⟨hhalted, hfault, -, u, hexec, rfl⟩
  · exact .inr ⟨rfl, rfl, rfl, fun _ _ => rfl⟩
  · exact .inr ⟨rfl, rfl, rfl, fun _ _ => rfl⟩
  · rcases (exec_effect hexec).calls_or_sameProtected with ⟨p, e, r, hi, hcalls, rfl⟩ | hsame
    · exact .inl ⟨⟨hhalted, hfault⟩, p, e, r, hi, hcalls, rfl⟩
    · exact .inr ⟨by simpa using hsame.sp, by simpa using hsame.lr, by simpa using hsame.cpl,
        by simpa using hsame.cells⟩

/-- Settles O44: a called handler that does not set the ring leaves CPL. -/
theorem cplChangesOnlyInHandlers : Obligations.CplChangesOnlyInHandlers := by
  intro s t hstep hne
  rcases step_calls_or_sameProtected hstep with ⟨hl, p, e, r, hi, hcalls, rfl⟩ | hsame
  · rw [State.retire_cpl, applyReply_cpl] at hne
    obtain ⟨q, hq⟩ := not_forall_not.mp (mt (applyWrites_cpl_of_not_mem s.advancePc.countCall) hne)
    exact ⟨hl, p, e, r, q, hi, hcalls, hq⟩
  · exact absurd hsame.cpl hne

/-- Settles O45: a called handler that does not write SP, or LR, leaves it. -/
theorem spAndLrChangeOnlyInHandlers : Obligations.SpAndLrChangeOnlyInHandlers := by
  intro s t hstep
  rcases step_calls_or_sameProtected hstep with ⟨-, p, e, r, hi, hcalls, rfl⟩ | hsame
  · rw [State.retire_sp, State.retire_lr, applyReply_sp, applyReply_lr]
    constructor
    · intro hne
      obtain ⟨v, hv⟩ := not_forall_not.mp (mt (applyWrites_sp_of_not_mem s.advancePc.countCall) hne)
      exact ⟨p, e, r, v, hi, hcalls, hv⟩
    · intro hne
      obtain ⟨v, hv⟩ := not_forall_not.mp (mt (applyWrites_lr_of_not_mem s.advancePc.countCall) hne)
      exact ⟨p, e, r, v, hi, hcalls, hv⟩
  · exact ⟨fun hne => absurd hsame.sp hne, fun hne => absurd hsame.lr hne⟩

/-- Settles O46: a called handler that does not write the cell leaves it, and duty 2 is about the write. -/
theorem protectedCellsChangeOnlyInHandlers : Obligations.ProtectedCellsChangeOnlyInHandlers := by
  intro s t a hstep ha hne
  rcases step_calls_or_sameProtected hstep with ⟨hl, p, e, r, hi, hcalls, rfl⟩ | hsame
  · rw [State.retire_mem, applyReply_mem] at hne
    obtain ⟨v, hv⟩ := not_forall_not.mp (mt (applyWrites_readCell_of_not_mem s.advancePc.countCall) hne)
    exact ⟨hl, p, e, r, v, hi, hcalls, hv, fun ⟨hprotected, _⟩ => hprotected a v hv ha⟩
  · exact absurd (hsame.cells a ha) hne

/-- Settles O47: each write of a dutiful handler keeps SP even, and nothing else changes SP. -/
theorem dutifulHandlersKeepSpEven : Obligations.DutifulHandlersKeepSpEven := by
  intro s t hduties heven hstep
  rcases step_calls_or_sameProtected hstep with ⟨-, p, e, r, -, hcalls, rfl⟩ | hsame
  · obtain ⟨-, hsp⟩ := hduties e r hcalls
    rw [State.retire_sp, applyReply_sp]
    refine applyWrites_induction (P := fun u => u.sp.getLsbD 0 = false) r.writes heven fun u w hw hu => ?_
    cases w with
    | sp v => exact hsp v hw
    | _ => simpa [applyWrite] using hu
  · rwa [hsame.sp]

/-- Settles O48: an effect that is not an ALU instruction's changes no flag but by a handler's write. -/
theorem flagsWrittenOnlyByAlu : Obligations.FlagsWrittenOnlyByAlu := by
  intro i s t hexec hi hno
  cases exec_effect hexec with
  | alu hwrites rd r c v => exact absurd (hwrites.symm.trans hi) (by decide)
  | handler p hsys e hfound hr r ho =>
    rw [applyReply_flags, applyWrites_flags_of_not_mem _ (hno p e r hsys ⟨hfound, Nat.not_lt.mp hr, ho⟩),
      State.countCall_flags]
  | _ => simp

/-! ### Progress -/

/-- The execute stage has a next state but for a SYSCALL let through to a handler without an outcome (45_system.md
R224). -/
theorem exec_next_or_stuck (i : Instr) (s : State) :
    (∃ u, exec i s = .next u) ∨
    ∃ p e, i = .syscall p ∧ findHandler s.handlers (s.reg 1) = some e ∧ s.cpl.level ≤ e.minRing.level ∧
      e.body.outcome s = none ∧ exec i s = .fault (.handlerNeverReturns (s.reg 1)) := by
  cases i with
  | syscall p =>
    rcases execSyscall_cases s with ⟨-, he⟩ | ⟨e, hfound, ⟨-, he⟩ | ⟨hr, ⟨ho, he⟩ | ⟨r, -, he⟩⟩⟩
    · exact .inl ⟨_, he⟩
    · exact .inl ⟨_, he⟩
    · exact .inr ⟨p, e, rfl, hfound, Nat.not_lt.mp hr, ho, he⟩
    · exact .inl ⟨_, he⟩
  | load rd rs off =>
    rw [exec, execLoad]
    cases memRead (effectiveAddress rs off s) s <;> exact .inl ⟨_, rfl⟩
  | store rd rs off =>
    rw [exec, execStore]
    cases memWrite (effectiveAddress rs off s) (s.reg rd) s <;> exact .inl ⟨_, rfl⟩
  | _ => exact .inl ⟨_, rfl⟩

/-- Settles O52: an ended machine and a refused fetch have a next state, and the execute stage decides the rest. -/
theorem stepHasNextStateUnlessHandlerHangs : Obligations.StepHasNextStateUnlessHandlerHangs := by
  intro s
  by_cases hended : s.halted = true ∨ s.fault ≠ none
  · exact .inl ⟨s, stepOfEndedMachineIsInert s hended⟩
  have hl : s.Live := by simpa [State.Live] using hended
  by_cases hc : region s.pc = .code
  · rw [step_of_live hl hc]
    rcases exec_next_or_stuck s.nextInstr s.advancePc with ⟨u, hu⟩ | ⟨p, e, hi, hfound, hallowed, ho, hstuck⟩
    · exact .inl ⟨u.retire, by rw [hu, finish]⟩
    · exact .inr ⟨hl, ⟨p, e, hi, hfound, hallowed, ho⟩, by rw [hstuck, finish, State.reg_advancePc]⟩
  · exact .inl ⟨_, (fetchOutsideCodeFaults s).2 hl hc⟩

end Sys2Proof.Machine
end

section
/-! Operands and accesses as numbers and tables, and the canonical form of memory (30_encoding.md R108, 20_memory.md R61
to R65, 10_state.md R36). -/

namespace Sys2Proof.Machine

/-! ### The operand forms -/

/-- A 16-bit word given by an integer has that integer's value modulo 65536. -/
theorem word_ofInt_toNat (x : Int) : ((BitVec.ofInt 16 x).toNat : Int) = x % 65536 := by
  rw [BitVec.toNat_ofInt]
  exact Int.toNat_of_nonneg (Int.emod_nonneg x (by decide))

theorem effectiveAddress_eq_ofInt (r : Reg) (off : Nibble) (s : State) :
    effectiveAddress r off s = BitVec.ofInt 16 ((s.reg r).toNat + off.toInt) := by
  rw [BitVec.ofInt_add, BitVec.ofInt_natCast, BitVec.ofNat_toNat, BitVec.setWidth_eq]
  rfl

/-- The amount is the value of the register modulo 16 (41_alu_rtype.md R168, D10). -/
theorem shiftAmount_eq (r : Reg) (s : State) : shiftAmount r s = (s.reg r).toNat % 16 := by
  rw [shiftAmount, BitVec.extractLsb'_toNat, Nat.shiftRight_zero]

/-- Settles O8: both sums wrap once to 16 bits, and the low four bits of a number are its remainder. -/
theorem operandFormsOverIntegers : Obligations.OperandFormsOverIntegers := by
  intro s r off4 byte
  refine ⟨immOperand_toNat byte, ?_, ?_, shiftAmount_eq r s⟩
  · rw [effectiveAddress_eq_ofInt, word_ofInt_toNat]
  · rw [branchTarget_eq_ofInt, word_ofInt_toNat]

/-! ### The access table -/

/-- Settles O10: an access is allowed by the region's flags alone, and a refused one is InvalidAccess for ring 0 on the
reserved region only. -/
theorem accessOutcomes : Obligations.AccessOutcomes := by
  intro a ring
  have hallow := fun kind => (check_ok_iff a kind ring).mpr
  have hrefuse := fun kind (h : kind ∉ (region a).accessFlags) => check_of_not_mem h ring
  refine ⟨fun hr => ?_, fun hr => ?_, fun hr kind => ?_⟩
  · rw [hr] at hallow hrefuse
    exact ⟨hallow .read (by decide), hallow .execute (by decide), hrefuse .write (by decide)⟩
  · rcases hr with hr | hr
    all_goals
      rw [hr] at hallow hrefuse
      exact ⟨hallow .read (by decide), hallow .write (by decide), hrefuse .execute (by decide)⟩
  · rw [hr] at hrefuse
    simpa using hrefuse kind List.not_mem_nil

/-! ### The canonical form -/

theorem Memory.readByte_of_not_mem {m : Memory} {k : Nat} (h : ∀ c ∈ m, c.1 ≠ k) : m.readByte k = Memory.unlisted := by
  induction m with
  | nil => rfl
  | cons c rest ih =>
    obtain ⟨a, b⟩ := c
    obtain ⟨ha, hrest⟩ := List.forall_mem_cons.mp h
    rw [Memory.readByte, if_neg ha, ih hrest]

/-- In rising order no entry is hidden by an earlier one of the same address. -/
theorem Memory.readByte_of_mem {m : Memory} (h : m.Pairwise (fun x y => x.1 < y.1)) {k : Nat} {v : Byte}
    (hc : (k, v) ∈ m) : m.readByte k = v := by
  induction m with
  | nil => cases hc
  | cons c rest ih =>
    obtain ⟨a, b⟩ := c
    obtain ⟨hfirst, hrest⟩ := List.pairwise_cons.mp h
    rcases List.mem_cons.mp hc with heq | hc
    · cases heq
      exact if_pos rfl
    · rw [Memory.readByte, if_neg (hfirst _ hc).ne, ih hrest hc]

/-- The entries of a canonical memory are its bytes that are not zero (assumption logs 1 and 2). -/
theorem Memory.mem_iff_readByte {m : Memory} (h : m.wf) {k : Nat} {v : Byte} :
    (k, v) ∈ m ↔ v ≠ Memory.unlisted ∧ m.readByte k = v := by
  obtain ⟨hrising, hentries⟩ := h
  constructor
  · exact fun hc => ⟨(hentries _ hc).2, Memory.readByte_of_mem hrising hc⟩
  · rintro ⟨hv, rfl⟩
    by_contra hno
    refine hv (Memory.readByte_of_not_mem fun c hc hk => hno ?_)
    obtain ⟨a, b⟩ := c
    cases hk
    rwa [Memory.readByte_of_mem hrising hc]

/-- Canonical memories with the same bytes list the same entries in the same order. -/
theorem Memory.eq_of_readByte_eq {m m' : Memory} (h : m.wf) (h' : m'.wf) (hb : ∀ k, m.readByte k = m'.readByte k) :
    m = m' := by
  have hentries : ∀ c, c ∈ m ↔ c ∈ m' := by
    rintro ⟨k, v⟩
    rw [Memory.mem_iff_readByte h, Memory.mem_iff_readByte h', hb]
  have : Std.Irrefl fun x y : Host.Cell => x.1 < y.1 := ⟨fun x => lt_irrefl x.1⟩
  have : Std.Antisymm fun x y : Host.Cell => x.1 < y.1 := ⟨fun _ _ hxy hyx => absurd hyx hxy.asymm⟩
  exact h.1.eq_of_mem_iff h'.1 hentries

/-- The low byte of a cell is the low half of the word it reads as. -/
theorem Memory.readByte_loByte (m : Memory) (a : Word) : m.readByte (loByte a) = (m.readCell a).extractLsb' 0 8 :=
  BitVec.extractLsb'_append_eq_right.symm

/-- The high byte of a cell is the high half of the word it reads as. -/
theorem Memory.readByte_hiByte (m : Memory) (a : Word) : m.readByte (hiByte a) = (m.readCell a).extractLsb' 8 8 :=
  BitVec.extractLsb'_append_eq_left.symm

/-- Beyond the 65,536 cells a canonical memory lists nothing. -/
theorem Memory.readByte_of_wf_of_le {m : Memory} (h : m.wf) {k : Nat} (hk : 2 * Config.cellCount ≤ k) :
    m.readByte k = Memory.unlisted :=
  Memory.readByte_of_not_mem fun c hc => ((h.2 c hc).1.trans_le hk).ne

/-- Every byte of the address space is the low or the high byte of a cell (assumption log 1). -/
theorem exists_cell_of_byte {k : Nat} (hk : k < 2 * Config.cellCount) : ∃ a : Word, k = loByte a ∨ k = hiByte a := by
  have hcell : k / 2 < 2 ^ 16 := by
    rw [Config.cellCount] at hk
    omega
  refine ⟨BitVec.ofNat 16 (k / 2), ?_⟩
  rw [loByte, hiByte, BitVec.toNat_ofNat, Nat.mod_eq_of_lt hcell]
  omega

/-- Settles O12: the cells give every byte of the address space, beyond it nothing is listed, and the bytes give the
list. -/
theorem equalCellsEqualMemory : Obligations.EqualCellsEqualMemory := by
  intro m m' h h' hcells
  refine Memory.eq_of_readByte_eq h h' fun k => ?_
  by_cases hk : k < 2 * Config.cellCount
  · obtain ⟨a, rfl | rfl⟩ := exists_cell_of_byte hk
    · rw [Memory.readByte_loByte, Memory.readByte_loByte, hcells]
    · rw [Memory.readByte_hiByte, Memory.readByte_hiByte, hcells]
  · have hge := Nat.le_of_not_lt hk
    rw [Memory.readByte_of_wf_of_le h hge, Memory.readByte_of_wf_of_le h' hge]

end Sys2Proof.Machine
end

section
/-! The rest of the ALU: SUB, the logic instructions, the shifts and LOADI as writebacks of a result read off the
operands' numbers or bits, and the bit forms of signed overflow (41_alu_rtype.md R163 to R169, 42_immediate.md R191). -/

namespace Sys2Proof.Machine

/-! ### SUB -/

theorem sub_eq_ofInt (a b : Word) : a - b = BitVec.ofInt 16 ((a.toNat : Int) - b.toNat) := by
  apply BitVec.eq_of_toNat_eq
  zify
  rw [word_ofInt_toNat, BitVec.toNat_sub]
  omega

/-- SUB is the ALU writeback of the difference modulo 65536, with C the borrow and V read off the exact signed difference
(41_alu_rtype.md R163). -/
theorem exec_sub_eq_aluWrite (rd rs rt : Reg) (s : State) :
    exec (.sub rd rs rt) s =
      aluWrite rd (BitVec.ofInt 16 (((s.reg rs).toNat : Int) - (s.reg rt).toNat))
        (decide ((s.reg rs).toNat < (s.reg rt).toNat))
        (decide (¬ (-32768 ≤ (s.reg rs).toInt - (s.reg rt).toInt ∧ (s.reg rs).toInt - (s.reg rt).toInt ≤ 32767))) s := by
  rw [exec, execSub, sub_eq_ofInt, subBorrow, subOverflow, outOfSignedRange_eq]

/-- Settles O17: the word is SUB's row, and the instruction is an ALU writeback of the difference. -/
theorem subCompletes : Obligations.SubCompletes := by
  intro illegalSet rd rs rt s
  refine ⟨fun hset => decode_encode_of_row (i := .sub rd rs rt) (by nofun) rfl rfl hset, ?_⟩
  rw [exec_sub_eq_aluWrite]
  exact aluWrite_completes rd _ _ _ s

/-! ### AND, OR, XOR, NOT -/

/-- An instruction that writes back a result with C and V cleared, the result being known by its bits. -/
theorem aluWrite_completes_bits {rd : Reg} {r : Word} {s : State} {bit : Nat → Bool}
    (hbits : ∀ k < 16, r.getLsbD k = bit k) :
    ∃ t r', aluWrite rd r false false s = .next t ∧ (∀ k < 16, r'.getLsbD k = bit k) ∧
      AluEffect rd r' ⟨decide (r'.toNat = 0), decide (32768 ≤ r'.toNat), false, false⟩ s t := by
  obtain ⟨t, hnext, heffect⟩ := aluWrite_completes rd r false false s
  exact ⟨t, r, hnext, hbits, heffect⟩

/-- Settles O18: the words are the rows', and each instruction is an ALU writeback of the bitwise result. -/
theorem logicCompletes : Obligations.LogicCompletes := by
  intro illegalSet rd rs rt s
  refine ⟨fun hset => decode_encode_of_row (i := .and rd rs rt) (by nofun) rfl rfl hset,
    fun hset => decode_encode_of_row (i := .or rd rs rt) (by nofun) rfl rfl hset,
    fun hset => decode_encode_of_row (i := .xor rd rs rt) (by nofun) rfl rfl hset,
    fun hset => decode_encode_of_row (i := .not rd rs rt) (by nofun) rfl rfl hset, ?_, ?_, ?_, ?_⟩
  · exact aluWrite_completes_bits fun k _ => BitVec.getLsbD_and
  · exact aluWrite_completes_bits fun k _ => BitVec.getLsbD_or
  · exact aluWrite_completes_bits fun k _ => BitVec.getLsbD_xor
  · refine aluWrite_completes_bits fun k hk => ?_
    have hones : (0xFFFF : Word) = BitVec.allOnes 16 := rfl
    rw [hones, BitVec.getLsbD_xor, BitVec.getLsbD_allOnes, decide_eq_true hk, Bool.xor_true]

/-! ### SHL and SHR -/

theorem shl_eq_ofNat (a : Word) (n : Nat) : a <<< n = BitVec.ofNat 16 (a.toNat * 2 ^ n % 65536) := by
  apply BitVec.eq_of_toNat_eq
  simp [BitVec.toNat_shiftLeft, Nat.shiftLeft_eq]

theorem shr_eq_ofNat (a : Word) (n : Nat) : a >>> n = BitVec.ofNat 16 (a.toNat / 2 ^ n) := by
  apply BitVec.eq_of_toNat_eq
  rw [BitVec.toNat_ushiftRight, Nat.shiftRight_eq_div_pow, BitVec.toNat_ofNat,
    Nat.mod_eq_of_lt (Nat.lt_of_le_of_lt (Nat.div_le_self _ _) a.isLt)]

/-- Settles O19: the words are the rows', and each shift is an ALU writeback of a product or a quotient by a power of
two. -/
theorem shiftsComplete : Obligations.ShiftsComplete := by
  intro illegalSet rd rs rt s
  refine ⟨fun hset => decode_encode_of_row (i := .shl rd rs rt) (by nofun) rfl rfl hset,
    fun hset => decode_encode_of_row (i := .shr rd rs rt) (by nofun) rfl rfl hset, ?_, ?_⟩
  · rw [exec, execShl, shiftAmount_eq, shl_eq_ofNat]
    exact aluWrite_completes rd _ _ _ s
  · rw [exec, execShr, shiftAmount_eq, shr_eq_ofNat]
    exact aluWrite_completes rd _ _ _ s

/-! ### LOADI -/

/-- Settles O21: the word is LOADI's row, and the immediate is below 32768, so N is 0. -/
theorem loadiCompletes : Obligations.LoadiCompletes := by
  intro illegalSet rd imm s
  refine ⟨fun hset => decode_encode_of_row (i := .loadi rd imm) (by nofun) rfl rfl hset, ?_⟩
  have himm : immOperand imm = BitVec.ofNat 16 imm.toNat := by
    rw [← immOperand_toNat, BitVec.ofNat_toNat, BitVec.setWidth_eq]
  have hpositive : decide (32768 ≤ (immOperand imm).toNat) = false := by
    rw [immOperand_toNat]
    exact decide_eq_false (by omega)
  have hcompletes := aluWrite_completes rd (immOperand imm) false false s
  rw [hpositive, immOperand_toNat, himm] at hcompletes
  rw [exec, execLoadi, himm]
  exact hcompletes

/-! ### The bit forms of signed overflow -/

/-- The range test of ADD is the library's signed overflow of 16-bit words. -/
theorem addOverflow_eq_saddOverflow (a b : Word) : addOverflow a b = a.saddOverflow b := by
  rw [addOverflow, outOfSignedRange, BitVec.saddOverflow, ← Bool.decide_or]
  exact decide_eq_decide.mpr (by omega)

/-- The range test of SUB is the library's signed overflow of 16-bit words. -/
theorem subOverflow_eq_ssubOverflow (a b : Word) : subOverflow a b = a.ssubOverflow b := by
  rw [subOverflow, outOfSignedRange, BitVec.ssubOverflow, ← Bool.decide_or]
  exact decide_eq_decide.mpr (by omega)

/-- Settles O22: the library's sign-bit forms, with the sign bit named bit 15. -/
theorem overflowBitForms : Obligations.OverflowBitForms := by
  intro a b
  have hsign : ∀ x : Word, x.getLsbD 15 = x.msb := fun x => (BitVec.msb_eq_getLsbD_last x).symm
  rw [addOverflow_eq_saddOverflow, subOverflow_eq_ssubOverflow, BitVec.saddOverflow_eq, BitVec.ssubOverflow_eq]
  simp only [hsign]
  cases a.msb <;> cases b.msb <;> simp

/-! ### Ignored fields -/

/-- Settles O23: the execute stage passes none of the three fields on (30_encoding.md R114). -/
theorem ignoredFieldsHaveNoEffect : Obligations.IgnoredFieldsHaveNoEffect := by
  intro s rd rs rt rt' off p p'
  exact ⟨rfl, rfl, rfl⟩

end Sys2Proof.Machine
end

section
/-! LOAD and STORE: where the access is allowed, where it is refused, and a LOAD after a STORE (43_load_store.md R200 to
R203, 20_memory.md R76). -/

namespace Sys2Proof.Machine

/-! ### Which regions can be read and written -/

theorem read_mem_accessFlags_iff {g : Region} : .read ∈ g.accessFlags ↔ g ≠ .reserved := by
  cases g <;> decide

theorem write_mem_accessFlags_iff {g : Region} : .write ∈ g.accessFlags ↔ g = .data ∨ g = .stack := by
  cases g <;> decide

/-! ### LOAD -/

theorem exec_load_of_readable {rd rs : Reg} {off : Nibble} {s : State}
    (h : .read ∈ (region (effectiveAddress rs off s)).accessFlags) :
    exec (.load rd rs off) s = .next (s.setReg rd (s.mem.readCell (effectiveAddress rs off s))) := by
  rw [exec, execLoad, memRead_ok_iff.mpr ⟨h, rfl⟩]

theorem exec_load_of_refused {rd rs : Reg} {off : Nibble} {s : State} {d : Violation}
    (h : check (effectiveAddress rs off s) .read s.cpl = .error d) :
    exec (.load rd rs off) s = .next (s.latch (d.withPc s.pcOfInstr)) := by
  rw [exec, execLoad, memRead_error_iff.mpr h]
  rfl

/-- Settles O24: the word is LOAD's row, and a readable cell is written to rd, with the frame of a register write. -/
theorem loadCompletes : Obligations.LoadCompletes := by
  intro illegalSet rd rs off s
  refine ⟨fun hset => decode_encode_of_row (i := .load rd rs off) (by nofun) rfl rfl hset, fun hr => ?_⟩
  refine ⟨_, exec_load_of_readable (read_mem_accessFlags_iff.mpr hr), ?_, ?_, ?_, ?_, ?_, ?_⟩
  · exact State.reg_setReg_self s rd _
  · exact setReg_sameRegsExcept s rd _
  · exact State.setReg_flags s rd _
  · exact State.setReg_pc s rd _
  · exact setReg_sameBytes s rd _
  · exact setReg_sameSystem s rd _

/-- Settles O25: the check refuses, and its descriptor is latched with PC minus one. -/
theorem loadFromReservedFaults : Obligations.LoadFromReservedFaults := by
  intro rd rs off s hr
  have hread : .read ∉ (region (effectiveAddress rs off s)).accessFlags := fun h =>
    read_mem_accessFlags_iff.mp h hr
  have hcheck := check_of_not_mem hread s.cpl
  rw [exec_load_of_refused hcheck, check_withPc_of_not_mem hread s.cpl hcheck]
  simp only [hr, true_and]
  rfl

/-! ### STORE -/

theorem exec_store_of_writable {rd rs : Reg} {off : Nibble} {s : State}
    (h : .write ∈ (region (effectiveAddress rs off s)).accessFlags) :
    exec (.store rd rs off) s = .next (s.setCell (effectiveAddress rs off s) (s.reg rd)) := by
  rw [exec, execStore, memWrite_ok_iff.mpr ⟨h, rfl⟩]

theorem exec_store_of_refused {rd rs : Reg} {off : Nibble} {s : State} {d : Violation}
    (h : check (effectiveAddress rs off s) .write s.cpl = .error d) :
    exec (.store rd rs off) s = .next (s.latch (d.withPc s.pcOfInstr)) := by
  rw [exec, execStore, memWrite_error_iff.mpr h]
  rfl

/-- Settles O26: the word is STORE's row, and a writable cell is written, with the frame of a cell write. -/
theorem storeCompletes : Obligations.StoreCompletes := by
  intro illegalSet rd rs off s
  refine ⟨fun hset => decode_encode_of_row (i := .store rd rs off) (by nofun) rfl rfl hset, fun hr => ?_⟩
  refine ⟨_, exec_store_of_writable (write_mem_accessFlags_iff.mpr hr), ?_, ?_, ?_, ?_, ?_, ?_⟩
  · exact Memory.readCell_writeCell_self s.mem _ _
  · exact setCell_sameBytesExcept s _ _
  · exact State.reg_setCell s _ _
  · exact State.setCell_flags s _ _
  · exact State.setCell_pc s _ _
  · exact setCell_sameSystem s _ _

/-- Settles O27: the check refuses, and its descriptor is latched with PC minus one. -/
theorem storeToProtectedFaults : Obligations.StoreToProtectedFaults := by
  intro rd rs off s hr
  have hwrite := not_write_of_protected hr
  have hcheck := check_of_not_mem hwrite s.cpl
  rw [exec_store_of_refused hcheck, check_withPc_of_not_mem hwrite s.cpl hcheck]
  rfl

/-- Settles O28: data and stack can be written and read, the STORE moves no register, and the cell reads what was
written. -/
theorem storeThenLoad : Obligations.StoreThenLoad := by
  intro rd rs d b off o s hr haddr
  have hread : .read ∈ (region (effectiveAddress rs off s)).accessFlags := by
    rcases hr with hr | hr <;> rw [hr] <;> decide
  have hstore := exec_store_of_writable (rd := rd) (write_mem_accessFlags_iff.mpr hr)
  have hsame : effectiveAddress b o (s.setCell (effectiveAddress rs off s) (s.reg rd)) = effectiveAddress rs off s :=
    haddr
  have hload := exec_load_of_readable (rd := d) (hsame.symm ▸ hread)
  refine ⟨_, _, hstore, hload, ?_⟩
  rw [State.reg_setReg_self, hsame, State.setCell_mem, Memory.readCell_writeCell_self]

end Sys2Proof.Machine
end

section
/-! What no instruction reads: the flags, and for most instructions CPL (10_state.md R31, R33; 40_execution_cycle.md
R145). -/

namespace Sys2Proof.Machine

/-! ### The flags -/

@[simp] theorem State.setFlags_setFlags (s : State) (f g : Flags) : (s.setFlags f).setFlags g = s.setFlags g := rfl

theorem State.setReg_setFlags (s : State) (f : Flags) (i : Reg) (v : Word) :
    (s.setFlags f).setReg i v = (s.setReg i v).setFlags f := by
  unfold State.setReg
  split <;> rfl

/-- An ALU writeback forgets the flags before it (10_state.md R31). -/
theorem aluWrite_setFlags (rd : Reg) (r : Word) (c v : Bool) (s : State) (f : Flags) :
    aluWrite rd r c v (s.setFlags f) = aluWrite rd r c v s := by
  rw [aluWrite, State.setReg_setFlags, State.setFlags_setFlags, aluWrite]

theorem branchIf_setFlags (taken : Bool) (off : Byte) (s : State) (f : Flags) :
    branchIf taken off (s.setFlags f) = mapNext (·.setFlags f) (branchIf taken off s) := by
  cases taken <;> rfl

theorem mapNext_setFlags_setFlags (f : Flags) (x : Result) :
    mapNext (·.setFlags f) (mapNext (·.setFlags f) x) = mapNext (·.setFlags f) x := by
  cases x <;> rfl

/-- A handler's writes do not read the flags. -/
theorem applyWrite_setFlags (s : State) (f : Flags) (w : HandlerWrite Word) :
    (applyWrite (s.setFlags f) w).setFlags f = (applyWrite s w).setFlags f := by
  cases w with
  | reg i v => simp only [applyWrite, State.setReg_setFlags, State.setFlags_setFlags]
  | _ => rfl

theorem applyWrites_setFlags (s : State) (f : Flags) (ws : List (HandlerWrite Word)) :
    (applyWrites (s.setFlags f) ws).setFlags f = (applyWrites s ws).setFlags f := by
  induction ws generalizing s with
  | nil => rfl
  | cons w ws ih =>
    calc (applyWrites (applyWrite (s.setFlags f) w) ws).setFlags f
      _ = (applyWrites ((applyWrite (s.setFlags f) w).setFlags f) ws).setFlags f := (ih _).symm
      _ = (applyWrites ((applyWrite s w).setFlags f) ws).setFlags f := by rw [applyWrite_setFlags]
      _ = (applyWrites (applyWrite s w) ws).setFlags f := ih _

theorem applyReply_setFlags (s : State) (f : Flags) (r : HandlerReply) :
    (applyReply (s.setFlags f) r).setFlags f = (applyReply s r).setFlags f := by
  rw [applyReply, ← State.setReg_setFlags, applyWrites_setFlags, State.setReg_setFlags, applyReply]

/-- SYSCALL in two states that differ in the flags alone, the handler doing the same in both. -/
theorem execSyscall_setFlags (s : State) (f : Flags)
    (h : ∀ e, findHandler s.handlers (s.reg 1) = some e → e.body.outcome (s.setFlags f) = e.body.outcome s) :
    mapNext (·.setFlags f) (execSyscall (s.setFlags f)) = mapNext (·.setFlags f) (execSyscall s) := by
  rcases execSyscall_cases s with ⟨hnone, he⟩ | ⟨e, hfound, ⟨hr, he⟩ | ⟨hr, ⟨ho, he⟩ | ⟨r, ho, he⟩⟩⟩
  · rw [he, execSyscall_unknown (s := s.setFlags f) hnone]
    rfl
  · rw [he, execSyscall_refused (s := s.setFlags f) hfound hr]
    rfl
  · rw [he, execSyscall_called (s := s.setFlags f) hfound hr, callHandler_stuck ((h e hfound).trans ho)]
    rfl
  · rw [he, execSyscall_called (s := s.setFlags f) hfound hr, callHandler_returns ((h e hfound).trans ho)]
    exact congrArg Host.Outcome.next (applyReply_setFlags s.countCall f r)

/-- Settles O49: the ALU writebacks forget the old flags, the transfers, LOAD and STORE pass them on, and SYSCALL does as
its handler. -/
theorem flagsNeverRead : Obligations.FlagsNeverRead := by
  intro i s f hsys
  cases i with
  | syscall p => exact execSyscall_setFlags s f fun e => hsys p e rfl
  | load rd rs off =>
    by_cases hr : .read ∈ (region (effectiveAddress rs off s)).accessFlags
    · rw [exec_load_of_readable hr, exec_load_of_readable (s := s.setFlags f) hr, State.setReg_setFlags]
      rfl
    · have hd := check_of_not_mem hr s.cpl
      rw [exec_load_of_refused hd, exec_load_of_refused (s := s.setFlags f) hd]
      rfl
  | store rd rs off =>
    by_cases hw : .write ∈ (region (effectiveAddress rs off s)).accessFlags
    · rw [exec_store_of_writable hw, exec_store_of_writable (s := s.setFlags f) hw]
      rfl
    · have hd := check_of_not_mem hw s.cpl
      rw [exec_store_of_refused hd, exec_store_of_refused (s := s.setFlags f) hd]
      rfl
  | jmp | beq | bne => exact (congrArg _ (branchIf_setFlags _ _ s f)).trans (mapNext_setFlags_setFlags f _)
  | halt | illegal => rfl
  | _ => exact congrArg _ (aluWrite_setFlags _ _ _ _ s f)

/-! ### CPL -/

theorem State.setReg_setRing (s : State) (q : Ring) (i : Reg) (v : Word) :
    (s.setRing q).setReg i v = (s.setReg i v).setRing q := by
  unfold State.setReg
  split <;> rfl

theorem aluWrite_setRing (rd : Reg) (r : Word) (c v : Bool) (s : State) (q : Ring) :
    aluWrite rd r c v (s.setRing q) = mapNext (·.setRing q) (aluWrite rd r c v s) := by
  rw [aluWrite, State.setReg_setRing]
  rfl

theorem branchIf_setRing (taken : Bool) (off : Byte) (s : State) (q : Ring) :
    branchIf taken off (s.setRing q) = mapNext (·.setRing q) (branchIf taken off s) := by
  cases taken <;> rfl

/-- Settles O50: an ALU writeback, a transfer, HALT and Illegal pass CPL on. -/
theorem cplReadOnlyByChecksAndGateway : Obligations.CplReadOnlyByChecksAndGateway := by
  intro i s q hi
  cases i with
  | load | store | syscall => cases hi
  | jmp | beq | bne => exact branchIf_setRing _ _ s q
  | halt | illegal => rfl
  | _ => exact aluWrite_setRing _ _ _ _ s q

end Sys2Proof.Machine
end

section
/-! The host's operations: runs and traces, the two loaders, snapshots, and the values of reset (70_reset_and_hazards.md
R280, R289 to R297). -/

namespace Sys2Proof.Machine

/-! ### Runs -/

/-- One round of the loop either ends the run, whatever is left of the bound, or goes on from a state to continue from
(70_reset_and_hazards.md R291). -/
theorem runLoop_succ_cases (n : Nat) (s : State) :
    (∃ e : RunEnd, (∀ pc c, e.status ≠ .cycleBudgetExhausted pc c) ∧ ∀ fuel, runLoop (fuel + 1) n s = e) ∨
    ∃ t, t.status = .continue ∧ ∀ fuel, runLoop (fuel + 1) n s = runLoop fuel (n + 1) t := by
  simp only [runLoop]
  cases step s with
  | fault f => exact .inl ⟨⟨.stuck f, n, s⟩, nofun, fun _ => rfl⟩
  | refused r => exact .inl ⟨⟨.refused r, n, s⟩, nofun, fun _ => rfl⟩
  | next t =>
    dsimp only
    cases ht : t.status with
    | err f => exact .inl ⟨⟨.err f, n, t⟩, nofun, fun _ => rfl⟩
    | halted => exact .inl ⟨⟨.halted, n + 1, t⟩, nofun, fun _ => rfl⟩
    | _ => exact .inr ⟨t, ht, fun _ => rfl⟩

/-- A loop that starts its count later ends the same, the report adjusted (70_reset_and_hazards.md R297). -/
theorem runLoop_add_start (k fuel n : Nat) (s : State) :
    runLoop fuel (k + n) s = RunEnd.after k (runLoop fuel n s) := by
  induction fuel generalizing n s with
  | zero => rfl
  | succ fuel ih =>
    simp only [runLoop]
    cases step s with
    | fault | refused => rfl
    | next t =>
      dsimp only
      cases t.status with
      | err | halted => rfl
      | _ => exact ih (n + 1) t

/-- A loop that used up its bound stopped in a state to continue from, and a longer loop goes on from there. -/
theorem runLoop_add_fuel_of_exhausted (m : Nat) {fuel n : Nat} {s : State} (hs : s.status = .continue) {pc : Word}
    {c : Nat} (h : (runLoop fuel n s).status = .cycleBudgetExhausted pc c) :
    (runLoop fuel n s).state.status = .continue ∧
      runLoop (fuel + m) n s = runLoop m (runLoop fuel n s).consumed (runLoop fuel n s).state := by
  induction fuel generalizing n s with
  | zero => exact ⟨hs, by rw [Nat.zero_add, runLoop]⟩
  | succ fuel ih =>
    rcases runLoop_succ_cases n s with ⟨e, hended, he⟩ | ⟨t, ht, hgo⟩
    · exact absurd (he fuel ▸ h) (hended pc c)
    · rw [hgo] at h ⊢
      rw [Nat.add_right_comm, hgo]
      exact ih ht h

/-- A loop that ended otherwise ends the same with a larger bound. -/
theorem runLoop_add_fuel_of_ended (m : Nat) {fuel n : Nat} {s : State}
    (h : ∀ pc c, (runLoop fuel n s).status ≠ .cycleBudgetExhausted pc c) :
    runLoop (fuel + m) n s = runLoop fuel n s := by
  induction fuel generalizing n s with
  | zero => exact absurd rfl (h s.pc n)
  | succ fuel ih =>
    rw [Nat.add_right_comm]
    rcases runLoop_succ_cases n s with ⟨e, -, he⟩ | ⟨t, -, hgo⟩
    · rw [he, he]
    · rw [hgo] at h
      rw [hgo, hgo]
      exact ih h

theorem run_of_continue {s : State} (h : s.status = .continue) (n : Nat) : run n s = runLoop n 0 s := by
  rw [run, h]

/-- Settles O54: from a machine that goes on, a run is its loop, and the longer loop splits where the bound was used up;
an ended machine runs not at all. -/
theorem runsCompose : Obligations.RunsCompose := by
  intro n m s
  cases hs : s.status with
  | err | halted => simp [run, hs]
  | _ =>
    simp only [run_of_continue hs]
    refine ⟨fun pc c hexhausted => ?_, runLoop_add_fuel_of_ended m⟩
    obtain ⟨hstate, hlonger⟩ := runLoop_add_fuel_of_exhausted m hs hexhausted
    rw [hlonger, run_of_continue hstate, ← runLoop_add_start, Nat.add_zero]

/-! ### Traces -/

/-- The loop of a trace is the loop of a run, with a record for each completed step (70_reset_and_hazards.md R292). -/
theorem traceLoop_eq_runLoop {ρ : Type} (record : State → State → ρ) (fuel n : Nat) (s : State) :
    (traceLoop record fuel n s).1 = runLoop fuel n s ∧
      n + (traceLoop record fuel n s).2.length = (runLoop fuel n s).consumed := by
  induction fuel generalizing n s with
  | zero => exact ⟨rfl, rfl⟩
  | succ fuel ih =>
    simp only [traceLoop, runLoop]
    cases step s with
    | fault | refused => exact ⟨rfl, rfl⟩
    | next t =>
      dsimp only
      cases t.status with
      | err | halted => exact ⟨rfl, rfl⟩
      | _ =>
        obtain ⟨hend, hcount⟩ := ih (n + 1) t
        refine ⟨hend, ?_⟩
        rw [← hcount, List.length_cons]
        omega

/-- Settles O55: on a machine that goes on by the loops, and an ended machine completes no step. -/
theorem traceEndsAsRun : Obligations.TraceEndsAsRun := by
  intro ρ record n s
  cases hs : s.status with
  | err | halted => simp [trace, run, hs]
  | _ =>
    obtain ⟨hend, hcount⟩ := traceLoop_eq_runLoop record n 0 s
    rw [run_of_continue hs, trace, hs]
    exact ⟨hend, by rw [← hcount, Nat.zero_add]⟩

/-! ### Loaders -/

theorem sameSystem_withMem (s : State) (m : Memory) : SameSystem s { s with mem := m } :=
  ⟨rfl, rfl, rfl, rfl, rfl, rfl, rfl, rfl, rfl⟩

theorem loadProgram_eq_some_iff {words : List Word} {base : Word} {s t : State} :
    s.loadProgram words base = some t ↔
      base.toNat + words.length ≤ 0x0100 ∧ t = { s with mem := s.mem.writeCells base words } := by
  rw [State.loadProgram, Option.ite_none_right_eq_some, Option.some.injEq, eq_comm (b := t)]

/-- Settles O56: a program that fits lies inside the address space, and its cells are written one after the other. -/
theorem loadProgramPlacesWords : Obligations.LoadProgramPlacesWords := by
  intro words base s
  refine ⟨?_, fun t ht => ?_⟩
  · simp [Option.isSome_iff_exists, loadProgram_eq_some_iff]
  · obtain ⟨hfits, rfl⟩ := loadProgram_eq_some_iff.mp ht
    have hspace : base.toNat + words.length ≤ Config.cellCount := hfits.trans (by decide)
    exact ⟨Memory.readCell_writeCells_inside words s.mem base hspace,
      fun a ha => Memory.readCell_writeCells_outside words s.mem base a hspace ha,
      fun _ => rfl, rfl, rfl, sameSystem_withMem s _⟩

/-- An image is loaded when it has whole words and its range is empty or ends below the reserved region
(70_reset_and_hazards.md R295). -/
theorem loadImage_eq_some_iff {bytes : List Byte} {addr : Word} {s t : State} :
    s.loadImage bytes addr = some t ↔
      ∃ ws, imageWords bytes = some ws ∧ (ws.length = 0 ∨ addr.toNat + ws.length ≤ 0xFFFE) ∧
        t = { s with mem := s.mem.writeCells addr ws } := by
  unfold State.loadImage
  cases himage : imageWords bytes with
  | none => simp
  | some ws =>
    have hrange : addr.toNat + ws.length ≤ Config.cellCount ∧ rangeAvoidsReserved addr ws.length = true ↔
        ws.length = 0 ∨ addr.toNat + ws.length ≤ 0xFFFE := by
      constructor
      · rintro ⟨hspace, havoids⟩
        exact (rangeAvoidsReserved_iff _ _ hspace).mp havoids
      · intro h
        have hspace : addr.toNat + ws.length ≤ Config.cellCount := by
          rw [Config.cellCount]
          omega
        exact ⟨hspace, (rangeAvoidsReserved_iff _ _ hspace).mpr h⟩
    dsimp only
    rw [Option.ite_none_right_eq_some, hrange, Option.some.injEq, eq_comm (b := t)]
    simp only [Option.some.injEq, exists_eq_left']

theorem append_toNat (hi lo : Byte) : (hi ++ lo : Word).toNat = lo.toNat + 256 * hi.toNat := by
  rw [BitVec.toNat_append, ← Nat.shiftLeft_add_eq_or_of_lt lo.isLt, Nat.shiftLeft_eq]
  omega

/-- Settles O57: just an even number of bytes makes words, half as many, and the cells of the words are written one after
the other. -/
theorem loadImageIsLittleEndian : Obligations.LoadImageIsLittleEndian := by
  intro bytes addr s
  constructor
  · rw [Option.isSome_iff_exists]
    simp only [loadImage_eq_some_iff]
    cases himage : imageWords bytes with
    | none =>
      have hodd := (imageWords_none bytes).mp himage
      simp [hodd]
    | some ws =>
      have hlength := imageWords_length bytes ws himage
      simp only [Option.some.injEq, exists_eq_left', exists_and_left, exists_eq, and_true]
      omega
  · intro t ht
    obtain ⟨ws, himage, hrange, rfl⟩ := loadImage_eq_some_iff.mp ht
    have hlength := imageWords_length bytes ws himage
    have hspace : addr.toNat + ws.length ≤ Config.cellCount := by
      rw [Config.cellCount]
      omega
    refine ⟨fun k hk => ?_, fun a ha => ?_, fun _ => rfl, rfl, rfl, sameSystem_withMem s _⟩
    · have hk' : k < ws.length := by omega
      rw [Memory.readCell_writeCells_inside ws s.mem addr hspace k hk', imageWords_getElem bytes ws himage k hk hk',
        append_toNat]
    · exact Memory.readCell_writeCells_outside ws s.mem addr a hspace (by omega)

/-! ### Snapshots -/

/-- Writing back the cells read from a range gives the range's cells, and leaves the others. -/
theorem readCell_writeCells_readCells (m m' : Memory) {first : Word} {len : Nat}
    (h : first.toNat + len ≤ Config.cellCount) (a : Word) :
    (m'.writeCells first (m.readCells first len)).readCell a =
      if first.toNat ≤ a.toNat ∧ a.toNat < first.toNat + len then m.readCell a else m'.readCell a := by
  have hspace : first.toNat + (m.readCells first len).length ≤ Config.cellCount := by
    rwa [Memory.length_readCells]
  split_ifs with ha
  · obtain ⟨k, hk⟩ := Nat.exists_eq_add_of_le ha.1
    have haddr : a = first + BitVec.ofNat 16 k := by
      apply BitVec.eq_of_toNat_eq
      have := a.isLt
      rw [BitVec.toNat_add, BitVec.toNat_ofNat]
      omega
    have hlt : k < (m.readCells first len).length := by
      rw [Memory.length_readCells]
      omega
    rw [haddr, Memory.readCell_writeCells_inside _ _ _ hspace k hlt, Memory.getElem_readCells]
  · refine Memory.readCell_writeCells_outside _ _ _ _ hspace ?_
    rw [Memory.length_readCells]
    omega

theorem snapshot_eq_some_iff {first : Word} {len : Nat} {s : State} {p : Snapshot} :
    s.snapshot first len = some p ↔ first.toNat + len ≤ Config.cellCount ∧
      p = { regs := s.regs, pc := s.pc, sp := s.sp, lr := s.lr, flags := s.flags, cpl := s.cpl, cycles := s.cycles,
            halted := s.halted, first := first, cells := s.mem.readCells first len } := by
  rw [State.snapshot, Option.ite_none_right_eq_some, Option.some.injEq, eq_comm (b := p)]

/-- Settles O58: the registers are copied out and in, and the slice's cells are written back where they were read. -/
theorem restoreGivesSnapshotBack : Obligations.RestoreGivesSnapshotBack := by
  intro s u first len p hp
  obtain ⟨hspace, rfl⟩ := snapshot_eq_some_iff.mp hp
  exact ⟨fun _ => rfl, rfl, rfl, rfl, rfl, rfl, rfl, rfl, rfl,
    fun a => readCell_writeCells_readCells s.mem u.mem hspace a, rfl, rfl⟩

/-! ### Reset -/

/-- Settles O59: an empty memory reads 0 in every cell, and the registers are cleared. -/
theorem resetIsInstantiation : Obligations.ResetIsInstantiation :=
  have hzero : (Memory.unlisted ++ Memory.unlisted : Word) = 0 := by decide
  ⟨fun _ => hzero, State.reg_reset, rfl, rfl, rfl, rfl⟩

/-- Settles O60: the fields of reset as decided (10_state.md section 8, D31). -/
theorem resetValuesByDecision : Obligations.ResetValuesByDecision :=
  ⟨rfl, rfl, rfl, rfl, rfl, rfl, rfl⟩

end Sys2Proof.Machine
end
